-- ==== Sys2Proof/Word.lean ====
section
/-! DEFINITION. The word and byte types of the unit and the index into a 16-word vector (R6, R8, R10).
Nothing in this hardware is signed (R8). -/

namespace Sys2Proof

/-- A word, an unsigned integer in `[0, 2^32)` (R8). -/
abbrev Word := BitVec 32

/-- A byte, an unsigned integer in `[0, 256)` (R8). -/
abbrev Byte := BitVec 8

/-- An index `0..15` into a 16-word vector: the value of a 4-bit field of format Q (R92). -/
abbrev Idx := Fin 16

/-- A 16-word vector, word `i` standing in row `i div 4`, column `i mod 4` of the matrix (R10). -/
abbrev Vec16 := Vector Word 16

end Sys2Proof
end

