-- ==== Sys2Proof/Machine/Arith.lean ====
section
/-! DEFINITION. The only arithmetic the hardware does (R130 to R132, R139) and the little-endian conversions
between words and bytes (R62). -/

namespace Sys2Proof.Machine

/-- `add32`: addition mod `2^32`, the carry out dropped and recorded nowhere (R37, R130). -/
def add32 (x y : Word) : Word := x + y

/-- `rotl32`: bit `i` of `x` becomes bit `(i + k) mod 32` of the result (R131). -/
def rotl32 (x : Word) (k : Nat) : Word := x.rotateLeft k

/-- `xor32` (R132). -/
def xor32 (x y : Word) : Word := x ^^^ y

/-- `xor8`, the same operation on bytes (R132). -/
def xor8 (x y : Byte) : Byte := x ^^^ y

/-- Byte `k` of a word, `w[8k+7 : 8k]` (R62). -/
def byteOf (w : Word) (k : Nat) : Byte := w.extractLsb' (8 * k) 8

/-- `le32`: the four bytes of a word, least significant first (R62). -/
def le32 (w : Word) : List Byte := [byteOf w 0, byteOf w 1, byteOf w 2, byteOf w 3]

/-- `word_le`, the inverse of `le32` (R9). -/
def wordLe (b0 b1 b2 b3 : Byte) : Word :=
  BitVec.ofNat 32 (b0.toNat + 2 ^ 8 * b1.toNat + 2 ^ 16 * b2.toNat + 2 ^ 24 * b3.toNat)

/-- The low `k` bits of a word, the rest zero: what a register of `k` bits in a 32-bit slot keeps of a
write (R28, R111). -/
def keepLow (k : Nat) (v : Word) : Word := BitVec.ofNat 32 (v.toNat % 2 ^ k)

end Sys2Proof.Machine
end

