-- ==== Sys2Proof/Config.lean ====
section
/-! DEFINITION. What a platform fixes for the unit (R7), and the free values: the values the spec leaves
open, as constants without a body. -/

namespace Sys2Proof

/-- A run of data-space addresses, `base` to `base + size - 1`. -/
structure Region where
  base : Nat
  size : Nat
  deriving DecidableEq, Repr

/-- The parameters of R7 that the sources leave to the platform, and which memory is not ordinary (R66).
Constant during a run (U12, U13; log entries 5, 6). -/
structure Platform where
  /-- `AW`: the data space has `2^AW` bytes. -/
  aw : Nat
  /-- `LENW`: width of the `LEN` register. -/
  lenw : Nat
  /-- `REGBASE`: the address of register offset 0. -/
  regBase : Nat
  /-- Whether the platform maps the register block into the data space (R73, U8). -/
  regMapped : Bool
  /-- The addresses below `2^AW` for which `Accessible` is false (R61, R65). -/
  blocked : List Region
  /-- Locations that are not ordinary memory (R66, U7). -/
  device : List Region
  deriving DecidableEq, Repr

/-- The defaults of R7, `AW = 32` and `LENW = 32`, with every address accessible and ordinary and the
register block outside the data space (DESIGN CHOICE, log entry 5). -/
def Platform.standard : Platform :=
  { aw := 32, lenw := 32, regBase := 0, regMapped := false, blocked := [], device := [] }

/-- The register block spans offsets `0x000` to `0x1FF` (R33, R60). -/
def Platform.regBlockBytes : Nat := 512

/-- FREE VALUE. A word the spec leaves unspecified: a read of `IS`, `WS` or `KSBW` while busy (R116, U4)
and `CUR` once `BUSY` is 0 (R41, U14). The argument is the count of values drawn so far. -/
opaque Config.freeWord : Nat → Word

/-- FREE VALUE. Whether byte `i` of a `STREAM` abandoned by reset had been transformed (R231, U10).
The first argument is the count of values drawn so far. -/
opaque Config.freeTook : Nat → Nat → Bool

end Sys2Proof
end

