-- ==== Sys2Proof/Syntax.lean ====
section
/-! DEFINITION. The command set `cc20-core command set v1` (R2, R93): three commands, one per unit. -/

namespace Sys2Proof

/-- One constructor for each row of the opcode map (R93). -/
inductive Instr where
  /-- `QR a, b, c, d` (format Q, R135): four indices into `WS`. -/
  | qr (a b c d : Idx)
  /-- `BLOCK` (format Z, R159). -/
  | block
  /-- `STREAM` (format Z, R177). -/
  | stream
  deriving DecidableEq, Repr

end Sys2Proof
end

