-- ==== Sys2Proof/WellFormed.lean ====
section
/-! DEFINITION. When a command is well formed: the four indices of `QR` are pairwise distinct (R137).
A 4-bit field cannot be out of range (R92), and `BLOCK` and `STREAM` carry no operand (R91). -/

namespace Sys2Proof

/-- The constraint of the opcode table: "a, b, c, d pairwise distinct, else BAD_INDEX". -/
def Instr.wellFormed : Instr → Bool
  | .qr a b c d => a != b && a != c && a != d && b != c && b != d && c != d
  | .block => true
  | .stream => true

end Sys2Proof
end

