-- ==== Sys2Proof/Decode.lean ====
section
/-! DEFINITION. The decoder, total on 32-bit words (R94), the encoder (R91, R93, R97), and the opcode map's
`match` and `mask` (R93). A command is the data of a host write to `CMD`: nothing is fetched, so there is
no byte order of fetch (R63, R73, R90). -/

namespace Sys2Proof

/-- Bits `hi` down to `lo` of a word, `(v div 2^lo) mod 2^(hi-lo+1)` (R8). -/
def field (w : Word) (hi lo : Nat) : Nat := w.toNat / 2 ^ lo % 2 ^ (hi - lo + 1)

/-- A 4-bit index field taken as it stands (R92). -/
def idxField (w : Word) (hi lo : Nat) : Idx := Fin.ofNat 16 (field w hi lo)

/-- Why a word is ILLEGAL, by R95. -/
inductive Illegal where
  /-- Opcode `0x00` or `0x04` to `0xFF`. -/
  | opcode
  /-- Opcode `0x01`, `0x02` or `0x03` with a non-zero bit where the format wants zero. -/
  | zeroField
  deriving DecidableEq, Repr

/-- The outcomes of R94: a command, or ILLEGAL with its reason. -/
inductive Decoded where
  | command (i : Instr)
  | illegal (why : Illegal)
  deriving DecidableEq, Repr

/-- Which of the two classes of R95 an ILLEGAL word belongs to. -/
def illegalKind (w : Word) : Illegal :=
  if field w 31 24 = 1 ∨ field w 31 24 = 2 ∨ field w 31 24 = 3 then .zeroField else .opcode

/-- `decode(w)` of R94. A `QR` with repeated indices decodes as `QR`. -/
def decode (w : Word) : Decoded :=
  if field w 31 16 = 0x0100 then
    .command (.qr (idxField w 15 12) (idxField w 11 8) (idxField w 7 4) (idxField w 3 0))
  else if w = 0x02000000 then .command .block
  else if w = 0x03000000 then .command .stream
  else .illegal (illegalKind w)

/-- The command word of a command, from the formats of R91 and the sum of R97 and R135. -/
def encode : Instr → Word
  | .qr a b c d =>
    BitVec.ofNat 32 (0x01000000 + 0x1000 * a.val + 0x100 * b.val + 0x10 * c.val + d.val)
  | .block => 0x02000000
  | .stream => 0x03000000

/-- The `match` column of R93. -/
def Instr.rowMatch : Instr → Word
  | .qr .. => 0x01000000
  | .block => 0x02000000
  | .stream => 0x03000000

/-- The `mask` column of R93. -/
def Instr.rowMask : Instr → Word
  | .qr .. => 0xFFFF0000
  | .block => 0xFFFFFFFF
  | .stream => 0xFFFFFFFF

/-- The command of a decoding, if it is one. -/
def Decoded.toOption : Decoded → Option Instr
  | .command i => some i
  | .illegal _ => none

/-- The host's reading of a row of spec/opcode_table.json: the command word is the table's one 32-bit
word, bit 0 its least significant bit (R8, R90); bits above `nbits` are zero. -/
def decodeTableWord (nbits w : Nat) : Option Instr :=
  (decode (BitVec.ofNat 32 (w % 2 ^ nbits))).toOption

end Sys2Proof
end

