-- ==== Sys2Proof/Machine/State.lean ====
section
/-! DEFINITION. The state of the unit (R20), of its platform (R7, R61), and of the agents that act on it
(R110), all plain data; the reasons a step can stop; the state after reset (R41). -/

namespace Sys2Proof.Machine

/-- The four errors of the shell (R201). They are recorded in `STATUS` and never stop the machine. -/
inductive Err where
  | illegalCmd
  | badIndex
  | range
  | bus
  deriving DecidableEq, Repr

/-- One action of the host (R97, R98). A register is named by its byte offset from `REGBASE`, 9 bits for
the block's 512 bytes (R33, R60); `width` is the access width in bits (R34). -/
inductive HostAction where
  /-- `WR`: a register write. -/
  | wr (off : BitVec 9) (width : Nat) (v : Word)
  /-- `RD`: a register read. -/
  | rd (off : BitVec 9) (width : Nat)
  /-- `MEMW`: the host places bytes in the data space, ascending. -/
  | memw (addr : Nat) (bytes : List Byte)
  /-- `MEMR`: the host reads `count` bytes of the data space. -/
  | memr (addr count : Nat)
  /-- `WAIT`: `repeat RD STATUS until STATUS.BUSY = 0`. -/
  | wait
  deriving DecidableEq, Repr

/-- Who moves at a step: one of the two agents, or the environment applying reset (R110). -/
inductive Turn where
  | host
  | engine
  | reset
  deriving DecidableEq, Repr

/-- Data space `M` as (address, byte) cells, addresses strictly rising, no cell equal to what an unlisted
address reads as (R61). -/
abbrev Memory := List Host.Cell

/-- What an address that no cell lists reads as. The spec gives the data space no contents at power-on;
DESIGN CHOICE, log entry 7. -/
def Memory.unlisted : Byte := 0

/-- The canonical form of a memory. -/
abbrev Memory.wf (m : Memory) : Prop :=
  m.Pairwise (fun x y => x.1 < y.1) ∧ ∀ c ∈ m, c.2 ≠ Memory.unlisted

/-- The state of a step. Names follow the register names of R20. -/
structure State where
  /-- `WS[0..15]`, the working State (R21). -/
  ws : Vec16
  /-- `IS[0..15]`, the input State (R23). -/
  is : Vec16
  /-- `KSB[0..63]`, the last keystream block that `BLOCK` serialised (R29). -/
  ksb : Vector Byte 64
  /-- `KEY[0..7]` (R25). -/
  key : Vector Word 8
  /-- `NONCE[0..2]` (R26). -/
  nonce : Vector Word 3
  /-- `CTR`, the initial counter (R27). -/
  ctr : Word
  /-- `BASE`, in its 32-bit slot (R28). -/
  base : Word
  /-- `LEN`, in its 32-bit slot (R28). -/
  len : Word
  /-- `STATUS.BUSY` (R30). -/
  busy : Bool
  /-- `STATUS.DONE` (R30). -/
  done : Bool
  /-- `STATUS.ERR` (R30). -/
  err : Bool
  /-- `STATUS.ERRCODE` (R30, R201). -/
  errCode : BitVec 4
  /-- `ERRINFO` (R31). -/
  errInfo : Word
  /-- `CUR`, the accepted command word, meaningful only while `BUSY = 1` (R35). -/
  cur : Word
  /-- The data space `M`, state of the platform (R20, R61). -/
  mem : Memory
  /-- The platform's parameters (R7); no step changes them (log entry 5). -/
  plat : Platform
  /-- MODEL'S OWN: the host's actions still to come, in order (R36; log entries 1, 3). -/
  host : List HostAction
  /-- MODEL'S OWN: whose turn it is, first the next one (R110; log entry 1). -/
  sched : List Turn
  /-- MODEL'S OWN: the word the host's last register read returned (R112; log entry 18). -/
  rdata : Word
  /-- MODEL'S OWN: the bytes the host's last `MEMR` returned (R97; log entry 18). -/
  mdata : List Byte
  /-- MODEL'S OWN: buffers of the `STREAM`s accepted since the host last read `STATUS` with `BUSY = 0`
  (R70 c, R239; log entry 11). -/
  owned : List Region
  /-- MODEL'S OWN: how many free values have been drawn (log entries 8, 9, 10). -/
  draws : Nat
  deriving DecidableEq, Repr

/-- Why the machine stops with a fault. -/
inductive Fault where
  /-- Raised by the host's `MEMW` and `MEMR` for an address outside `[0, 2^AW)`, which does not exist (R61).
  Safe: the model stops (log entry 19). -/
  | outsideDataSpace
  deriving DecidableEq, Repr

/-- Why the model gives an action no successor. -/
inductive Refusal where
  /-- An instruction without a meaning. No arm of this model uses it. Safe. -/
  | notModelled (mnemonic : String)
  /-- Raised by the host's `MEMW` and `MEMR` on a byte of a buffer that belongs to the engine
  (R70 c, R239, U5). Safe (log entry 11). -/
  | bufferRace
  /-- Raised by a register access that is not an aligned 32-bit one (R34, U6). Safe (log entry 13). -/
  | undefinedAccess
  /-- Raised by `STREAM`, by reset during `STREAM`, and by `MEMW` and `MEMR`, on a location that is not
  ordinary memory (R66, U7). Safe (log entry 14). -/
  | notOrdinaryMemory
  /-- Raised by `STREAM`, by reset during `STREAM`, and by `MEMW` and `MEMR`, on the unit's own register
  block where the platform maps it into the data space (R73, U8). Safe (log entry 15). -/
  | coversRegisters
  deriving DecidableEq, Repr

/-- The machine right after reset: every register at the value of R41, `CUR` at the value log entry 8
names, the data space with nothing listed, no host action pending. -/
def State.reset : State :=
  { ws := Vector.replicate 16 0
    is := Vector.replicate 16 0
    ksb := Vector.replicate 64 0
    key := Vector.replicate 8 0
    nonce := Vector.replicate 3 0
    ctr := 0
    base := 0
    len := 0
    busy := false
    done := false
    err := false
    errCode := 0
    errInfo := 0
    cur := 0
    mem := []
    plat := Platform.standard
    host := []
    sched := []
    rdata := 0
    mdata := []
    owned := []
    draws := 0 }

end Sys2Proof.Machine
end

