-- ==== Sys2Proof/Machine/Ops.lean ====
section
/-! DEFINITION. The shared operations: the data space and its two primitives (R61, R65), regions of
addresses, taking an error (`raise`, R207) and leaving it (R208), and the life cycle of a command
(acceptance R114, completion R115). -/

namespace Sys2Proof

/-- Whether an address lies in a region. -/
def Region.contains (r : Region) (a : Nat) : Bool := decide (r.base ≤ a ∧ a < r.base + r.size)

/-- Whether two regions share an address. -/
def Region.meets (r t : Region) : Bool :=
  decide (0 < r.size ∧ 0 < t.size ∧ r.base < t.base + t.size ∧ t.base < r.base + r.size)

/-- `Accessible(addr)` (R61, R65, R68): inside the data space and answering. -/
def Platform.accessible (p : Platform) (a : Nat) : Bool :=
  decide (a < 2 ^ p.aw) && !(p.blocked.any (·.contains a))

/-- Whether a region touches memory that is not ordinary (R66, U7). -/
def Platform.touchesDevice (p : Platform) (r : Region) : Bool := p.device.any (·.meets r)

/-- Whether a region touches the register block where the platform maps it into the data space (R73, U8). -/
def Platform.touchesRegisters (p : Platform) (r : Region) : Bool :=
  p.regMapped && Region.meets ⟨p.regBase, Platform.regBlockBytes⟩ r

namespace Machine

/-! ### The data space -/

/-- The byte of `M` at an address (R61). -/
def Memory.read : Memory → Nat → Byte
  | [], _ => Memory.unlisted
  | (k, v) :: t, a => if k = a then v else Memory.read t a

/-- `M[a] <- b`, keeping the canonical form (R61). -/
def Memory.write : Memory → Nat → Byte → Memory
  | [], a, b => if b = Memory.unlisted then [] else [(a, b)]
  | (k, v) :: t, a, b =>
    if a < k then (if b = Memory.unlisted then (k, v) :: t else (a, b) :: (k, v) :: t)
    else if a = k then (if b = Memory.unlisted then t else (a, b) :: t)
    else (k, v) :: Memory.write t a b

/-- Bytes placed at ascending addresses (R97 `MEMW`). -/
def Memory.writeBytes : Memory → Nat → List Byte → Memory
  | m, _, [] => m
  | m, a, b :: bs => Memory.writeBytes (Memory.write m a b) (a + 1) bs

/-- `count` bytes read from ascending addresses (R97 `MEMR`). -/
def Memory.readBytes (m : Memory) : Nat → Nat → List Byte
  | _, 0 => []
  | a, count + 1 => Memory.read m a :: Memory.readBytes m (a + 1) count

/-- `MemRead(addr, 1)` (R65): the byte, or nothing where the access raises `BUS(addr)`. -/
def memRead (p : Platform) (m : Memory) (a : Nat) : Option Byte :=
  if p.accessible a then some (Memory.read m a) else none

/-- `MemWrite(addr, 1, v)` (R65): the memory written, or nothing where the access raises `BUS(addr)`. -/
def memWrite (p : Platform) (m : Memory) (a : Nat) (v : Byte) : Option Memory :=
  if p.accessible a then some (Memory.write m a v) else none

/-! ### Errors -/

/-- `ERRCODE` of an error (R201). -/
def Err.code : Err → BitVec 4
  | .illegalCmd => 1
  | .badIndex => 2
  | .range => 3
  | .bus => 4

/-- `raise E(info)` (R207): the whole of what taking an error does. "`STATUS.DONE` stays 0". -/
def raise (e : Err) (info : Word) (s : State) : State :=
  { s with err := true, errCode := e.code, errInfo := info, busy := false, done := false }

/-- The return from an error (R117, R208): nothing is restored and nothing is retried. -/
def clearError (s : State) : State := { s with err := false, errCode := 0, errInfo := 0 }

/-! ### The life cycle of a command -/

/-- The data buffer, `M[BASE]` to `M[BASE + LEN - 1]` (R28). -/
def buffer (s : State) : Region := ⟨s.base.toNat, s.len.toNat⟩

/-- Acceptance (R114): `BUSY <- 1`, `CUR <- w` and nothing else of the unit. From here the buffer of a
`STREAM` belongs to the engine (R70 c, R239; log entry 11). -/
def accept (w : Word) (s : State) : State :=
  { s with
    busy := true
    cur := w
    owned := if decode w = .command .stream then buffer s :: s.owned else s.owned }

/-- `BUSY <- 0`; `CUR` is then any value (R35, U14). -/
def leaveBusy (s : State) : State :=
  { s with busy := false, cur := Config.freeWord s.draws, draws := s.draws + 1 }

/-- The end of a completion that raised nothing (R115): `BUSY <- 0`, `DONE <- 1`. -/
def complete (s : State) : State := { leaveBusy s with done := true }

/-- The end of an engine step that raised an error (R115, R207). -/
def abort (e : Err) (info : Word) (s : State) : State := raise e info (leaveBusy s)

end Machine

end Sys2Proof
end

