-- ==== Sys2Proof/Machine/Flags.lean ====
section
/-! DEFINITION. The status bits, the only flags there are (R30, R37): the word a read of `STATUS` gives (R112)
and the write-1-to-clear write (R117). No arithmetic flag exists. -/

namespace Sys2Proof.Machine

/-- What a read of `STATUS` returns: `{0[31:12], ERRCODE, 0[7:3], ERR, DONE, BUSY}` (R30, R112). -/
def statusWord (s : State) : Word :=
  0#20 ++ s.errCode ++ 0#5 ++ BitVec.ofBool s.err ++ BitVec.ofBool s.done ++ BitVec.ofBool s.busy

/-- `WR STATUS, v` while idle (R117): bit 1 clears `DONE`, bit 2 clears the error, all other bits are
ignored. -/
def writeStatus (v : Word) (s : State) : State :=
  let s1 := if v.getLsbD 1 then { s with done := false } else s
  if v.getLsbD 2 then clearError s1 else s1

end Sys2Proof.Machine
end

