-- ==== Sys2Proof/Machine/Operands.lean ====
section
/-! DEFINITION. The operands: the register map (R33), the value each slot reads as (R112), what a write to
each slot keeps (R111), and the checks on a command's operands (R137, R178). -/

namespace Sys2Proof.Machine

/-- The slots of the register map (R33). -/
inductive Reg where
  | cmd
  | status
  | errInfo
  | base
  | len
  | ctr
  | key (j : Fin 8)
  | nonce (j : Fin 3)
  | is (i : Idx)
  | ws (i : Idx)
  | ksbw (j : Idx)
  | reserved
  deriving DecidableEq, Repr

/-- The register map: the 128 slots of 32 bits from `REGBASE` up (R33). -/
def registerMap : List Reg :=
  [.cmd, .status, .errInfo, .reserved, .base, .len, .ctr, .reserved]
    ++ (List.finRange 8).map .key
    ++ (List.finRange 3).map .nonce
    ++ List.replicate 13 .reserved
    ++ (List.finRange 16).map .is
    ++ (List.finRange 16).map .ws
    ++ (List.finRange 16).map .ksbw
    ++ List.replicate 48 .reserved

/-- The slot at a word-aligned byte offset from `REGBASE` (R33). -/
def regAt (off : BitVec 9) : Reg := registerMap.getD (off.toNat / 4) .reserved

/-- The byte offset of a slot from `REGBASE` (R33); for `reserved`, the first reserved slot. -/
def Reg.offset : Reg → BitVec 9
  | .cmd => 0x000
  | .status => 0x004
  | .errInfo => 0x008
  | .reserved => 0x00C
  | .base => 0x010
  | .len => 0x014
  | .ctr => 0x018
  | .key j => BitVec.ofNat 9 (0x020 + 4 * j.val)
  | .nonce j => BitVec.ofNat 9 (0x040 + 4 * j.val)
  | .is i => BitVec.ofNat 9 (0x080 + 4 * i.val)
  | .ws i => BitVec.ofNat 9 (0x0C0 + 4 * i.val)
  | .ksbw j => BitVec.ofNat 9 (0x100 + 4 * j.val)

/-- The slots whose reads are unspecified while busy (R116). -/
def Reg.working : Reg → Bool
  | .is _ => true
  | .ws _ => true
  | .ksbw _ => true
  | _ => false

/-- Only naturally aligned 32-bit accesses are defined (R34). -/
def definedAccess (off : BitVec 9) (width : Nat) : Bool :=
  decide (width = 32 ∧ off.toNat % 4 = 0)

/-- `KSBW[j]`, the little-endian word of `KSB[4j..4j+3]` (R29). -/
def ksbWord (ksb : Vector Byte 64) (j : Idx) : Word :=
  wordLe ksb[4 * j.val] ksb[4 * j.val + 1] ksb[4 * j.val + 2] ksb[4 * j.val + 3]

/-- What a read of a slot returns while idle (R112). -/
def regValue (r : Reg) (s : State) : Word :=
  match r with
  | .cmd => 0
  | .status => statusWord s
  | .errInfo => s.errInfo
  | .base => s.base
  | .len => s.len
  | .ctr => s.ctr
  | .key j => s.key[j]
  | .nonce j => s.nonce[j]
  | .is i => s.is[i]
  | .ws i => s.ws[i]
  | .ksbw j => ksbWord s.ksb j
  | .reserved => 0

/-- A write to a slot other than `CMD` while idle (R111): a write to a read-only or a reserved slot is
ignored (R34). -/
def writeSlot (r : Reg) (v : Word) (s : State) : State :=
  match r with
  | .cmd => s
  | .status => writeStatus v s
  | .errInfo => s
  | .base => { s with base := keepLow s.plat.aw v }
  | .len => { s with len := keepLow s.plat.lenw v }
  | .ctr => { s with ctr := v }
  | .key j => { s with key := s.key.set j v }
  | .nonce j => { s with nonce := s.nonce.set j v }
  | .is i => { s with is := s.is.set i v }
  | .ws i => { s with ws := s.ws.set i v }
  | .ksbw _ => s
  | .reserved => s

/-- The condition "distinct" on the indices of `QR` (R92, R137). -/
def indicesDistinct (a b c d : Idx) : Bool :=
  decide (a ≠ b ∧ a ≠ c ∧ a ≠ d ∧ b ≠ c ∧ b ≠ d ∧ c ≠ d)

/-- `BASE + LEN ≤ 2^AW` on natural numbers, without wrap (R113, R178). -/
def bufferInRange (s : State) : Bool := decide (s.base.toNat + s.len.toNat ≤ 2 ^ s.plat.aw)

end Sys2Proof.Machine
end

