-- ==== Sys2Proof/Machine/QuarterRound.lean ====
section
/-! DEFINITION. `quarter_round_unit`: the quarter-round function (R133, R136) and the `QR` command (R135, R137). -/

namespace Sys2Proof.Machine

/-- `qr4`, the ARX sequence on the four words of the `a`, `b`, `c`, `d` slots, every intermediate value
named as in R133. -/
def qr4 (xa xb xc xd : Word) : Word × Word × Word × Word :=
  let a1 := add32 xa xb
  let d1 := rotl32 (xor32 xd a1) 16
  let c1 := add32 xc d1
  let b1 := rotl32 (xor32 xb c1) 12
  let a2 := add32 a1 b1
  let d2 := rotl32 (xor32 d1 a2) 8
  let c2 := add32 c1 d2
  let b2 := rotl32 (xor32 b1 c2) 7
  (a2, b2, c2, d2)

/-- `QRf(S, a, b, c, d)` for pairwise distinct indices: `S` with `qr4` of the four words stored back
(R133, R136). -/
def qrf (S : Vec16) (a b c d : Idx) : Vec16 :=
  let r := qr4 S[a] S[b] S[c] S[d]
  (((S.set a r.1).set b r.2.1).set c r.2.2.1).set d r.2.2.2

/-- The error of a `QR` at issue (R113 step 3b, R137, R203). -/
def qrError (a b c d : Idx) : Option Err :=
  if indicesDistinct a b c d then none else some .badIndex

/-- `QR a, b, c, d` (R135): `WS <- QRf(WS, a, b, c, d)`. With repeated indices it is the error
`BAD_INDEX`, `WS` unchanged (R137): such a word is rejected at issue and never latched, and the check
here gives the same result in a state where `CUR` holds one (log entry 4). -/
def execQr (a b c d : Idx) (s : State) : Host.Outcome State Fault Refusal :=
  match qrError a b c d with
  | some e => .next (abort e (encode (.qr a b c d)) s)
  | none => .next (complete { s with ws := qrf s.ws a b c d })

end Sys2Proof.Machine
end

