-- ==== Sys2Proof/Machine/BlockCipher.lean ====
section
/-! DEFINITION. `chacha20_block_cipher`: rounds (R150 to R154), feed-forward and serialisation (R156, R157), the
block function (R158) and the `BLOCK` command (R159). -/

namespace Sys2Proof.Machine

/-- An index quadruple `(a, b, c, d)`. -/
abbrev Quad := Idx × Idx × Idx × Idx

/-- The column quadruples `COL[0..3]` (R150). -/
def columnQuads : List Quad := [(0, 4, 8, 12), (1, 5, 9, 13), (2, 6, 10, 14), (3, 7, 11, 15)]

/-- The diagonal quadruples `DIA[0..3]` (R150). -/
def diagonalQuads : List Quad := [(0, 5, 10, 15), (1, 6, 11, 12), (2, 7, 8, 13), (3, 4, 9, 14)]

/-- `QRf` on one quadruple. -/
def qrfQuad (W : Vec16) (q : Quad) : Vec16 := qrf W q.1 q.2.1 q.2.2.1 q.2.2.2

/-- The column round `CR` (R151), the quarter rounds in the order of R150. -/
def columnRound (W : Vec16) : Vec16 := columnQuads.foldl qrfQuad W

/-- The diagonal round `DR` (R152). -/
def diagonalRound (W : Vec16) : Vec16 := diagonalQuads.foldl qrfQuad W

/-- The double round `DBL`: the column round first, then the diagonal round (R153). -/
def doubleRound (W : Vec16) : Vec16 := diagonalRound (columnRound W)

/-- `n` double rounds in succession. -/
def doubleRounds : Nat → Vec16 → Vec16
  | 0, W => W
  | n + 1, W => doubleRounds n (doubleRound W)

/-- The twenty rounds `R20 = DBL^10` (R154). -/
def twentyRounds (W : Vec16) : Vec16 := doubleRounds 10 W

/-- Feed-forward `FF(X, W)` (R156). -/
def feedForward (X W : Vec16) : Vec16 := Vector.ofFn fun i => add32 W[i] X[i]

/-- Serialisation `SER(Z)`: byte `4j + k` is `Z[j][8k+7 : 8k]` (R157). -/
def serialise (Z : Vec16) : Vector Byte 64 :=
  Vector.ofFn fun n => byteOf (Z[n.val / 4]'(by omega)) (n.val % 4)

/-- `Bw(X) = FF(X, R20(X))` (R158). -/
def blockWords (X : Vec16) : Vec16 := feedForward X (twentyRounds X)

/-- `Bf(X) = SER(Bw(X))` (R158). -/
def blockBytes (X : Vec16) : Vector Byte 64 := serialise (blockWords X)

/-- `BLOCK` (R159): `WS <- Bw(IS)`, `KSB <- SER(WS)`, `IS` unchanged. -/
def execBlock (s : State) : Host.Outcome State Fault Refusal :=
  .next (complete { s with ws := blockWords s.is, ksb := serialise (blockWords s.is) })

end Sys2Proof.Machine
end

