-- ==== Sys2Proof/Machine/StreamCipher.lean ====
section
/-! DEFINITION. `chacha20_stream_cipher_engine`: state assembly (R171), block count (R172), keystream (R173), the
pass over the buffer (R175, R179) and the `STREAM` command (R177). -/

namespace Sys2Proof.Machine

/-- State assembly `Asm(KEY, c, NONCE)` (R24, R171): constant, key, counter, nonce. -/
def assemble (key : Vector Word 8) (c : Word) (nonce : Vector Word 3) : Vec16 :=
  #v[0x61707865, 0x3320646e, 0x79622d32, 0x6b206574,
     key[0], key[1], key[2], key[3], key[4], key[5], key[6], key[7],
     c, nonce[0], nonce[1], nonce[2]]

/-- The block count `n = ceil(LEN / 64)` on natural numbers (R172). -/
def blockCount (len : Nat) : Nat := (len + 63) / 64

/-- `X[12] <- add32(X[12], 1)`: the counter's increment, which wraps silently (R173, R174). -/
def bumpCounter (X : Vec16) : Vec16 := X.set 12 (add32 X[12] 1)

/-- The keystream of `n` blocks from the running state `X` (R173). -/
def keystream : Nat → Vec16 → List Byte
  | 0, _ => []
  | n + 1, X => (blockBytes X).toList ++ keystream n (bumpCounter X)

/-- One data-space access of the engine (R69). -/
inductive Access where
  | read (addr : Nat)
  | write (addr : Nat)
  deriving DecidableEq, Repr

/-- What a pass over the buffer leaves: the memory, the accesses made in order, and the address whose
access failed, if one did. -/
structure Pass where
  mem : Memory
  accesses : List Access
  failed : Option Nat
  deriving DecidableEq, Repr

/-- Keystream application (R175): for each byte in ascending order, `p = MemRead(a)` and
`MemWrite(a, xor8(p, k))`; the first access that fails ends the pass (R179). -/
def xorPass (p : Platform) : Memory → Nat → List Byte → Pass
  | m, _, [] => ⟨m, [], none⟩
  | m, a, k :: ks =>
    match memRead p m a with
    | none => ⟨m, [], some a⟩
    | some b =>
      match memWrite p m a (xor8 b k) with
      | none => ⟨m, [.read a], some a⟩
      | some m' =>
        let rest := xorPass p m' (a + 1) ks
        ⟨rest.mem, .read a :: .write a :: rest.accesses, rest.failed⟩

/-- The keystream bytes a `STREAM` uses: those of its `n` blocks, the tail beyond `LEN` discarded
(R172, R173, R176). -/
def streamBytes (s : State) : List Byte :=
  (keystream (blockCount s.len.toNat) (assemble s.key s.ctr s.nonce)).take s.len.toNat

/-- The pass of a `STREAM` over its buffer (R177 step 4). -/
def streamPass (s : State) : Pass := xorPass s.plat s.mem s.base.toNat (streamBytes s)

/-- Step 5 of R177: the call's State and keystream are discarded (R184). -/
def zeroWorking (s : State) : State :=
  { s with
    is := Vector.replicate 16 0
    ws := Vector.replicate 16 0
    ksb := Vector.replicate 64 0 }

/-- The error of a `STREAM` at issue (R113 step 3c, R178, R204). -/
def streamError (s : State) : Option Err := if bufferInRange s then none else some .range

/-- Why the model gives a `STREAM` no successor: its buffer covers the unit's own registers (R73, U8), or
is not ordinary memory (R66, U7). -/
def bufferRefusal (p : Platform) (r : Region) : Option Refusal :=
  if p.touchesRegisters r then some .coversRegisters
  else if p.touchesDevice r then some .notOrdinaryMemory
  else none

/-- `STREAM` (R177): the buffer xored with the keystream, then the working registers zeroed. A byte that
does not answer is `BUS` with its address, the partial result standing (R179, R205). With
`BASE + LEN > 2^AW` it is the error `RANGE`, nothing else changed (R178): such a `STREAM` is rejected at
issue, and the check here gives the same result in a state where `CUR` holds one (log entry 4). -/
def execStream (s : State) : Host.Outcome State Fault Refusal :=
  match streamError s with
  | some e => .next (abort e (encode .stream) s)
  | none =>
    match bufferRefusal s.plat (buffer s) with
    | some r => .refused r
    | none =>
      let pass := streamPass s
      let s1 := zeroWorking { s with mem := pass.mem }
      match pass.failed with
      | some a => .next (abort .bus (BitVec.ofNat 32 a) s1)
      | none => .next (complete s1)

end Sys2Proof.Machine
end

