-- ==== Sys2Proof/Machine/Reset.lean ====
section
/-! DEFINITION. Reset as an event of the environment (R230), and what it leaves of a `STREAM` it abandons (R231). -/

namespace Sys2Proof.Machine

/-- The registers at the values of R41; the data space, the platform and the host are not touched. `CUR` is
unspecified (R41, U14). -/
def resetRegisters (s : State) : State :=
  { s with
    ws := State.reset.ws
    is := State.reset.is
    ksb := State.reset.ksb
    key := State.reset.key
    nonce := State.reset.nonce
    ctr := State.reset.ctr
    base := State.reset.base
    len := State.reset.len
    busy := State.reset.busy
    done := State.reset.done
    err := State.reset.err
    errCode := State.reset.errCode
    errInfo := State.reset.errInfo
    cur := Config.freeWord s.draws
    draws := s.draws + 1 }

/-- The buffer of an abandoned `STREAM`: byte `i` transformed where `took i`, else its old value (R231). -/
def mixPass (took : Nat → Bool) : Nat → Nat → List Byte → Memory → Memory
  | _, _, [], m => m
  | i, a, k :: ks, m =>
    mixPass took (i + 1) (a + 1) ks
      (if took i then Memory.write m a (xor8 (Memory.read m a) k) else m)

/-- Whether the engine is busy with a `STREAM`. -/
def streaming (s : State) : Bool := s.busy && decide (decode s.cur = .command .stream)

/-- The reset input applied (R230); while a `STREAM` is busy each buffer byte is left old or transformed,
which is free (R231, U10; log entry 10). -/
def resetEvent (s : State) : Host.Outcome State Fault Refusal :=
  if streaming s then
    match bufferRefusal s.plat (buffer s) with
    | some r => .refused r
    | none =>
      .next (resetRegisters
        { s with mem := mixPass (Config.freeTook s.draws) 0 s.base.toNat (streamBytes s) s.mem })
  else .next (resetRegisters s)

end Sys2Proof.Machine
end

