-- ==== Sys2Proof/Machine/Dispatch.lean ====
section
/-! DEFINITION. Which meaning each command has: one arm for each constructor. -/

namespace Sys2Proof.Machine

/-- The engine performs a command (R115): its effect, or the error it raises. -/
def exec (i : Instr) (s : State) : Host.Outcome State Fault Refusal :=
  match i with
  | .qr a b c d => Sys2Proof.Machine.execQr a b c d s
  | .block => Sys2Proof.Machine.execBlock s
  | .stream => Sys2Proof.Machine.execStream s

end Sys2Proof.Machine
end

