-- ==== Sys2Proof/Machine/HostPort.lean ====
section
/-! DEFINITION. What the host's actions do: command issue (R113), register writes and reads (R111, R112, R116), its
own data-space accesses (R70, R97), `WAIT` (R98). -/

namespace Sys2Proof.Machine

/-- The check of R113 steps 3b and 3c on a decoded command. -/
def admission (i : Instr) (s : State) : Option Err :=
  match i with
  | .qr a b c d => qrError a b c d
  | .block => none
  | .stream => streamError s

/-- Command issue, `WR CMD, w` (R113): the checks in the order of the rule. -/
def issue (w : Word) (s : State) : State :=
  if s.busy then s
  else if s.err then s
  else
    let s1 := { s with done := false }
    match decode w with
    | .illegal _ => raise .illegalCmd w s1
    | .command i =>
      match admission i s1 with
      | some e => raise e w s1
      | none => accept w s1

/-- `WR reg, v`: ignored while busy (R116), else R111. -/
def writeReg (r : Reg) (v : Word) (s : State) : State :=
  if s.busy then s
  else
    match r with
    | .cmd => issue v s
    | r => writeSlot r v s

/-- The host has read `STATUS`: when it shows `BUSY = 0` the buffers are the host's again (R70 b, R71). -/
def observeStatus (s : State) : State := if s.busy then s else { s with owned := [] }

/-- `RD reg` (R112): the value is returned to the host and no register changes; while busy a read of `IS`,
`WS` or `KSBW` is an unspecified word, a new one at each read (R116, U4). -/
def readReg (r : Reg) (s : State) : State :=
  if s.busy && r.working then
    { s with rdata := Config.freeWord s.draws, draws := s.draws + 1 }
  else
    match r with
    | .status => { observeStatus s with rdata := regValue .status s }
    | r => { s with rdata := regValue r s }

/-- Whether the host may touch a region of the data space (R61, R70 c, R73, R66). -/
def hostMayTouch (r : Region) (s : State) : Option (Fault ⊕ Refusal) :=
  if r.size ≠ 0 ∧ 2 ^ s.plat.aw < r.base + r.size then some (.inl .outsideDataSpace)
  else if s.owned.any (·.meets r) then some (.inr .bufferRace)
  else (bufferRefusal s.plat r).map .inr

/-- An access of the host to the data space: refused where R70 c, R66, R73 say so, else its effect. -/
def hostMemAccess (r : Region) (s t : State) : Host.Outcome State Fault Refusal :=
  match hostMayTouch r s with
  | some (.inl f) => .fault f
  | some (.inr e) => .refused e
  | none => .next t

/-- One action of the host (R97, R98, R111, R112), already taken off the host's script. -/
def hostAct (act : HostAction) (s : State) : Host.Outcome State Fault Refusal :=
  match act with
  | .wr off width v =>
    if definedAccess off width then .next (writeReg (regAt off) v s) else .refused .undefinedAccess
  | .rd off width =>
    if definedAccess off width then .next (readReg (regAt off) s) else .refused .undefinedAccess
  | .memw addr bytes =>
    hostMemAccess ⟨addr, bytes.length⟩ s { s with mem := s.mem.writeBytes addr bytes }
  | .memr addr count =>
    hostMemAccess ⟨addr, count⟩ s { s with mdata := s.mem.readBytes addr count }
  | .wait =>
    if s.busy then .next { readReg .status s with host := .wait :: s.host }
    else .next (readReg .status s)

end Sys2Proof.Machine
end

