-- ==== Sys2Proof/Machine/Turns.lean ====
section
/-! DEFINITION. What a turn of each agent does (R110): the host's next action, the engine's completion. -/

namespace Sys2Proof.Machine

/-- The host's next action (R36, R110); a host that has none left does nothing. -/
def hostTurn (s : State) : Host.Outcome State Fault Refusal :=
  match s.host with
  | [] => .next s
  | act :: rest => hostAct act { s with host := rest }

/-- The engine's step, enabled exactly while `BUSY = 1`: it performs `decode(CUR)` (R110, R115). An ILLEGAL
word is never latched (R113); the model then answers as R95 does (log entry 4). -/
def engineTurn (s : State) : Host.Outcome State Fault Refusal :=
  if s.busy then
    match decode s.cur with
    | .command i => exec i s
    | .illegal _ => .next (abort .illegalCmd s.cur s)
  else .next s

end Sys2Proof.Machine
end

