-- ==== Sys2Proof/Machine/Step.lean ====
section
/-! DEFINITION. One step of the machine: the next turn of the host, the engine or the environment (R110). -/

namespace Sys2Proof.Machine

/-- One step (R110). The schedule names who moves; when it is used up, the engine moves while it has a step
and else the host: an enabled completion is eventually taken (R118; log entry 1). -/
def step (s : State) : Host.Outcome State Fault Refusal :=
  match s.sched with
  | .host :: rest => hostTurn { s with sched := rest }
  | .engine :: rest => engineTurn { s with sched := rest }
  | .reset :: rest => resetEvent { s with sched := rest }
  | [] => if s.busy then engineTurn s else hostTurn s

/-- The state in which the next step runs the command word `w`: `w` latched in `CUR` as acceptance leaves it
(R114) with no error pending, and the engine's turn (log entry 3). -/
def State.withFetchWord (s : State) (nbits w : Nat) : State :=
  let s1 := accept (BitVec.ofNat 32 (w % 2 ^ nbits)) (clearError { s with done := false })
  { s1 with sched := .engine :: s1.sched }

end Sys2Proof.Machine
end

