-- ==== Sys2Proof/Safety.lean ====
section
/-! DEFINITION. What counts as a legal state and a safe run, in the terms the statements use: the invariants the
spec gives the reachable states (R30, R61, R28, R115), the end of a run (R243), and the states in which a
given action is the next one. -/

namespace Sys2Proof.Machine

/-- The parameters are in the ranges of D15 and D18 (R28). -/
def legalPlatform (p : Platform) : Prop :=
  1 ≤ p.aw ∧ p.aw ≤ 32 ∧ 1 ≤ p.lenw ∧ p.lenw ≤ 32

/-- The status bits of every reachable state (R30, R31): `BUSY = 1 ⇒ DONE = 0 ∧ ERR = 0`,
`¬(DONE = 1 ∧ ERR = 1)`, `ERR = 0 ⇒ ERRCODE = 0` and `ERRINFO = 0`; with `ERR = 1`, a code of R201. -/
structure StatusLegal (s : State) : Prop where
  busyExcludes : s.busy = true → s.done = false ∧ s.err = false
  notBoth : ¬ (s.done = true ∧ s.err = true)
  noErrorNoReport : s.err = false → s.errCode = 0 ∧ s.errInfo = 0
  errorHasCode : s.err = true → 1 ≤ s.errCode.toNat ∧ s.errCode.toNat ≤ 4

/-- The word in `CUR` is one R113 accepts: a command, `QR` with distinct indices, `STREAM` in range
(R115: "rule R113 accepts no such word"). -/
def LatchedAdmissible (s : State) : Prop :=
  ∃ i, decode s.cur = .command i ∧ i.wellFormed = true ∧
    (i = .stream → s.base.toNat + s.len.toNat ≤ 2 ^ s.plat.aw)

/-- The invariant of the machine. -/
structure Inv (s : State) : Prop where
  /-- The parameters are legal (R7, R28). -/
  plat : legalPlatform s.plat
  /-- `BASE` holds `AW` bits (R28). -/
  base : s.base.toNat < 2 ^ s.plat.aw
  /-- `LEN` holds `LENW` bits (R28). -/
  len : s.len.toNat < 2 ^ s.plat.lenw
  /-- The status bits (R30). -/
  status : StatusLegal s
  /-- What a busy unit performs was accepted (R113, R115). -/
  latched : s.busy = true → LatchedAdmissible s
  /-- The buffer of a busy `STREAM` belongs to the engine (R239). -/
  owned : streaming s = true → buffer s ∈ s.owned
  /-- The data space is in canonical form. -/
  mem : s.mem.wf
  /-- The data space is `[0, 2^AW)` (R61). -/
  memInside : ∀ c ∈ s.mem, c.1 < 2 ^ s.plat.aw

/-- When a `STREAM` completes without error: the addresses of the buffer are in range, answer, and are ordinary
memory away from the unit's registers (R66, R73, R178, R179). The data space is in canonical form, as in
every state of a run. -/
structure StreamReady (s : State) : Prop where
  canonical : s.mem.wf
  inRange : s.base.toNat + s.len.toNat ≤ 2 ^ s.plat.aw
  answers : ∀ i, i < s.len.toNat → s.plat.accessible (s.base.toNat + i) = true
  ordinary : s.plat.touchesDevice (buffer s) = false
  awayFromRegisters : s.plat.touchesRegisters (buffer s) = false

/-- Byte `i` of the keystream in closed form: `Bf(Asm(KEY, add32(CTR, i div 64), NONCE))[i mod 64]` (R173). -/
def keystreamByte (s : State) (i : Nat) : Byte :=
  (blockBytes (assemble s.key (s.ctr + BitVec.ofNat 32 (i / 64)) s.nonce))[i % 64]'(Nat.mod_lt i (by decide))

/-- The host is next, and `act` is what it does. -/
def State.withHostAction (s : State) (act : HostAction) : State :=
  { s with sched := .host :: s.sched, host := act :: s.host }

/-- The engine is next. -/
def State.withEngineTurn (s : State) : State := { s with sched := .engine :: s.sched }

/-- Reset is next. -/
def State.withResetTurn (s : State) : State := { s with sched := .reset :: s.sched }

/-- Commands performed one after the other. -/
def execAll : List Instr → State → Host.Outcome State Fault Refusal
  | [], s => .next s
  | i :: is, s =>
    match exec i s with
    | .next t => execAll is t
    | .fault f => .fault f
    | .refused r => .refused r

/-- The eighty `QR` commands of ten `DBLROUND`s (R98, R162). -/
def eightyQrs : List Instr :=
  (List.replicate 10 (columnQuads ++ diagonalQuads)).flatten.map
    fun q => .qr q.1 q.2.1 q.2.2.1 q.2.2.2

/-- The next step is the host's: its turn is next, or no turn is left and the unit is idle (R110; log entry 1). -/
def hostMoves (s : State) : Prop := (∃ rest, s.sched = .host :: rest) ∨ (s.sched = [] ∧ s.busy = false)

/-- `t` is reached from `s` by steps. -/
inductive Steps : State → State → Prop where
  | refl (s : State) : Steps s s
  | step {s t u : State} : Steps s t → Machine.step t = .next u → Steps s u

/-- The step from `s` to `t` is the read of `STATUS` that ends a run: the host's, the last action of its script, and
returning `BUSY = 0` (R243; log entry 23). -/
def endsRun (s t : State) : Prop :=
  hostMoves s ∧ (s.host = [.rd 0x004 32] ∨ s.host = [.wait]) ∧ step s = .next t ∧ t.rdata.getLsbD 0 = false

/-- The run launched in `start` has ended, in `t`: every action of the script has been performed, and the last of
them, a read of `STATUS` after all others, has returned `BUSY = 0`. The result of the run is what `t` holds
(R243). -/
def ended (start t : State) : Prop := ∃ s, Steps start s ∧ endsRun s t

/-- The run has ended in error: the `STATUS` read that ended it shows `ERR = 1` (R243). -/
def endedInError (start t : State) : Prop := ended start t ∧ t.rdata.getLsbD 2 = true

/-- States that steps reach from reset, whatever host script, schedule, platform and data the run was
launched with. -/
inductive Reachable : State → Prop where
  | launch (p : Platform) (m : Memory) (h : List HostAction) (c : List Turn) :
      legalPlatform p → m.wf → (∀ x ∈ m, x.1 < 2 ^ p.aw) →
      Reachable { State.reset with plat := p, mem := m, host := h, sched := c }
  | step {s t : State} : Reachable s → step s = .next t → Reachable t

end Sys2Proof.Machine
end

