-- ==== Sys2Proof/Certificates/Slice0/Obligations.lean ====
section
/-! DEFINITION. The statements for the provers. Each docstring names the rules it formalises; where a clause is
the model's own choice, the log entry. -/

open Sys2Proof Sys2Proof.Machine

/-! ### Encoding -/

/-- Decoding the word of any command gives the command back, every index at every value (R91, R93, R94). -/
def Obligations.DecodeOfEncodeIsTheCommand : Prop :=
  ∀ i : Instr, decode (encode i) = .command i

/-- A word that decodes to a command is that command's word: no bit is dropped (R91, R94). -/
def Obligations.EncodeOfDecodeIsTheWord : Prop :=
  ∀ (w : Word) (i : Instr), decode w = .command i → encode i = w

/-- The four outcomes of decoding, by bit fields (R94). -/
def Obligations.DecodingHasFourOutcomes : Prop :=
  ∀ w : Word,
    (w.extractLsb' 16 16 = 0x0100#16 →
      decode w = .command (.qr (w.extractLsb' 12 4).toFin (w.extractLsb' 8 4).toFin
        (w.extractLsb' 4 4).toFin (w.extractLsb' 0 4).toFin)) ∧
    (w = 0x02000000#32 → decode w = .command .block) ∧
    (w = 0x03000000#32 → decode w = .command .stream) ∧
    (w.extractLsb' 16 16 ≠ 0x0100#16 → w ≠ 0x02000000#32 → w ≠ 0x03000000#32 →
      ∃ why, decode w = .illegal why)

/-- Which words are illegal, and that each is rejected with `ILLEGAL_CMD` and its word in `ERRINFO`, nothing
else changed (R95, R202). -/
def Obligations.IllegalWordsAreRejected : Prop :=
  (∀ w : Word, (∃ why, decode w = .illegal why) ↔
    (w.extractLsb' 24 8 = 0#8 ∨ 4#8 ≤ w.extractLsb' 24 8 ∨
      (w.extractLsb' 24 8 = 1#8 ∧ w.extractLsb' 16 8 ≠ 0#8) ∨
      ((w.extractLsb' 24 8 = 2#8 ∨ w.extractLsb' 24 8 = 3#8) ∧ w.extractLsb' 0 24 ≠ 0#24))) ∧
  (∀ (s : State) (w : Word), s.busy = false → s.err = false → (∃ why, decode w = .illegal why) →
    step (s.withHostAction (.wr 0 32 w)) =
      .next { s with done := false, err := true, errCode := 1, errInfo := w })

/-- Words written out from the tables of R93 and R98 decode to their commands; the all-zero and all-ones words
are illegal (R95). -/
def Obligations.SampleWordsDecode : Prop :=
  decode 0x0100048C#32 = .command (.qr 0 4 8 12) ∧
  decode 0x010005AF#32 = .command (.qr 0 5 10 15) ∧
  decode 0x0100349E#32 = .command (.qr 3 4 9 14) ∧
  decode 0x0100278D#32 = .command (.qr 2 7 8 13) ∧
  decode 0x01002788#32 = .command (.qr 2 7 8 8) ∧
  decode 0x02000000#32 = .command .block ∧
  decode 0x03000000#32 = .command .stream ∧
  decode 0x0101278D#32 = .illegal .zeroField ∧
  decode 0x00000000#32 = .illegal .opcode ∧
  decode 0xFFFFFFFF#32 = .illegal .opcode

/-- The register map: every named slot is found at its offset, offsets are word aligned, and the offsets the map
calls reserved name no register (R33). -/
def Obligations.RegisterMapPlacesEverySlot : Prop :=
  (regAt 0x000 = .cmd ∧ regAt 0x004 = .status ∧ regAt 0x008 = .errInfo ∧ regAt 0x010 = .base ∧
    regAt 0x014 = .len ∧ regAt 0x018 = .ctr) ∧
  (∀ j : Fin 8, regAt (BitVec.ofNat 9 (0x020 + 4 * j.val)) = .key j) ∧
  (∀ j : Fin 3, regAt (BitVec.ofNat 9 (0x040 + 4 * j.val)) = .nonce j) ∧
  (∀ i : Idx, regAt (BitVec.ofNat 9 (0x080 + 4 * i.val)) = .is i ∧
    regAt (BitVec.ofNat 9 (0x0C0 + 4 * i.val)) = .ws i ∧
    regAt (BitVec.ofNat 9 (0x100 + 4 * i.val)) = .ksbw i) ∧
  (∀ off : BitVec 9, off.toNat % 4 = 0 →
    (off.toNat = 0x00C ∨ off.toNat = 0x01C ∨ (0x04C ≤ off.toNat ∧ off.toNat ≤ 0x07C) ∨
      (0x140 ≤ off.toNat ∧ off.toNat ≤ 0x1FC)) →
    regAt off = .reserved) ∧
  (∀ r : Reg, r ≠ .reserved → regAt r.offset = r ∧ r.offset.toNat % 4 = 0)

/-! ### Arithmetic -/

/-- `add32` is addition mod `2^32`, the carry dropped, commutative and associative, with the corner cases of
R130. -/
def Obligations.AdditionDropsTheCarry : Prop :=
  (∀ x y : Word, (add32 x y).toNat = (x.toNat + y.toNat) % 2 ^ 32) ∧
  (∀ x y : Word, add32 x y = add32 y x) ∧
  (∀ x y z : Word, add32 (add32 x y) z = add32 x (add32 y z)) ∧
  (∀ x : Word, add32 x 0 = x) ∧
  add32 0xFFFFFFFF 1 = 0 ∧ add32 0xFFFFFFFF 0xFFFFFFFF = 0xFFFFFFFE ∧
  add32 0x80000000 0x80000000 = 0

/-- A left rotation takes bit `i` to bit `(i + k) mod 32`, and has the arithmetic form of R131. -/
def Obligations.RotationMovesBitsLeft : Prop :=
  ∀ (x : Word) (k : Nat), 0 < k → k < 32 →
    (∀ i, i < 32 → (rotl32 x k).getLsbD ((i + k) % 32) = x.getLsbD i) ∧
    (rotl32 x k).toNat = (x.toNat * 2 ^ k) % 2 ^ 32 + x.toNat / 2 ^ (32 - k)

/-- `le32` puts the least significant byte first and `word_le` inverts it (R9, R62). -/
def Obligations.LittleEndianConversionsInvert : Prop :=
  (∀ w : Word, (le32 w).map BitVec.toNat =
    [w.toNat % 256, w.toNat / 2 ^ 8 % 256, w.toNat / 2 ^ 16 % 256, w.toNat / 2 ^ 24 % 256]) ∧
  (∀ w : Word, wordLe (byteOf w 0) (byteOf w 1) (byteOf w 2) (byteOf w 3) = w) ∧
  (∀ b0 b1 b2 b3 : Byte, le32 (wordLe b0 b1 b2 b3) = [b0, b1, b2, b3])

/-! ### The quarter-round unit -/

/-- `qr4` is a bijection on 4-tuples of words (R138 b). -/
def Obligations.QuarterRoundIsBijective : Prop :=
  Function.Bijective fun x : Word × Word × Word × Word => qr4 x.1 x.2.1 x.2.2.1 x.2.2.2

/-- `QRf` updates the four named slots only, and what it puts there depends on the four words in them and on
nothing else, not on the numeric values of the indices (R136). -/
def Obligations.QuarterRoundTouchesFourSlots : Prop :=
  ∀ (S T : Vec16) (a b c d a' b' c' d' : Idx),
    indicesDistinct a b c d = true → indicesDistinct a' b' c' d' = true →
    (∀ i : Idx, i ≠ a → i ≠ b → i ≠ c → i ≠ d → (qrf S a b c d)[i] = S[i]) ∧
    (S[a] = T[a'] → S[b] = T[b'] → S[c] = T[c'] → S[d] = T[d'] →
      (qrf S a b c d)[a] = (qrf T a' b' c' d')[a'] ∧ (qrf S a b c d)[b] = (qrf T a' b' c' d')[b'] ∧
      (qrf S a b c d)[c] = (qrf T a' b' c' d')[c'] ∧ (qrf S a b c d)[d] = (qrf T a' b' c' d')[d'])

/-- Quarter rounds on disjoint index sets commute (R138 d). -/
def Obligations.DisjointQuarterRoundsCommute : Prop :=
  ∀ (S : Vec16) (a b c d a' b' c' d' : Idx),
    indicesDistinct a b c d = true → indicesDistinct a' b' c' d' = true →
    (∀ i, i ∈ [a, b, c, d] → i ∉ [a', b', c', d']) →
    qrf (qrf S a b c d) a' b' c' d' = qrf (qrf S a' b' c' d') a b c d

/-- `QR` with distinct indices completes, and leaves in the four slots the values of the ARX sequence, written out
as in R133, and every other word of `WS` as it was (R133, R135). -/
def Obligations.QrLeavesTheArxValues : Prop :=
  ∀ (s : State) (a b c d : Idx), a ≠ b → a ≠ c → a ≠ d → b ≠ c → b ≠ d → c ≠ d →
    ∃ t, exec (.qr a b c d) s = .next t ∧
      (let a1 := s.ws[a] + s.ws[b]
       let d1 := (s.ws[d] ^^^ a1).rotateLeft 16
       let c1 := s.ws[c] + d1
       let b1 := (s.ws[b] ^^^ c1).rotateLeft 12
       let a2 := a1 + b1
       let d2 := (d1 ^^^ a2).rotateLeft 8
       let c2 := c1 + d2
       let b2 := (b1 ^^^ c2).rotateLeft 7
       t.ws[a] = a2 ∧ t.ws[b] = b2 ∧ t.ws[c] = c2 ∧ t.ws[d] = d2) ∧
      (∀ i : Idx, i ≠ a → i ≠ b → i ≠ c → i ≠ d → t.ws[i] = s.ws[i]) ∧
      t.busy = false ∧ t.done = true ∧ t.err = s.err ∧ t.errCode = s.errCode ∧ t.errInfo = s.errInfo

/-- A `QR` with repeated indices is rejected at issue with `BAD_INDEX` and its word, and no word of `WS` changes
(R137, R203); the engine, were it handed one, gives the same report (log entry 4). -/
def Obligations.QrWithRepeatedIndicesIsRejected : Prop :=
  ∀ (s : State) (a b c d : Idx), a = b ∨ a = c ∨ a = d ∨ b = c ∨ b = d ∨ c = d →
    (s.busy = false → s.err = false →
      step (s.withHostAction (.wr 0 32 (encode (.qr a b c d)))) =
        .next { s with done := false, err := true, errCode := 2, errInfo := encode (.qr a b c d) }) ∧
    (∃ t, exec (.qr a b c d) s = .next t ∧ t.ws = s.ws ∧ t.err = true ∧ t.errCode = 2 ∧
      t.errInfo = encode (.qr a b c d) ∧ t.busy = false ∧ t.done = false)

/-! ### The block cipher unit -/

/-- The eight quadruples: `COL[k]` and `DIA[k]` by formula, and each kind covers every index exactly once (R150). -/
def Obligations.QuadruplesCoverEveryIndexOnce : Prop :=
  (∀ k : Fin 4, columnQuads[k.val]? = some (Fin.ofNat 16 k.val, Fin.ofNat 16 (4 + k.val),
      Fin.ofNat 16 (8 + k.val), Fin.ofNat 16 (12 + k.val)) ∧
    diagonalQuads[k.val]? = some (Fin.ofNat 16 k.val, Fin.ofNat 16 (4 + (k.val + 1) % 4),
      Fin.ofNat 16 (8 + (k.val + 2) % 4), Fin.ofNat 16 (12 + (k.val + 3) % 4))) ∧
  columnQuads.length = 4 ∧ diagonalQuads.length = 4 ∧
  (∀ i : Idx, (columnQuads.flatMap fun q => [q.1, q.2.1, q.2.2.1, q.2.2.2]).count i = 1 ∧
    (diagonalQuads.flatMap fun q => [q.1, q.2.1, q.2.2.1, q.2.2.2]).count i = 1)

/-- A column round and a diagonal round have the same value in whatever order their four quarter rounds are
done (R155). -/
def Obligations.RoundIsIndependentOfOrder : Prop :=
  ∀ (W : Vec16) (qs : List Quad),
    (qs.Perm columnQuads → qs.foldl qrfQuad W = columnRound W) ∧
    (qs.Perm diagonalQuads → qs.foldl qrfQuad W = diagonalRound W)

/-- The order of the two groups is not free: columns first, then diagonals (R153). -/
def Obligations.ColumnsComeBeforeDiagonals : Prop :=
  (∀ W : Vec16, doubleRound W = diagonalRound (columnRound W)) ∧
  (∃ W : Vec16, columnRound (diagonalRound W) ≠ diagonalRound (columnRound W))

/-- `BLOCK` completes: `WS[i]` is the mixed word plus `IS[i]`, byte `4j + k` of `KSB` is bits `8k+7..8k` of
`WS[j]`, `IS` unchanged (R156, R157, R159). -/
def Obligations.BlockLeavesTheBlockFunction : Prop :=
  ∀ s : State, ∃ t, exec .block s = .next t ∧
    (∀ i : Idx, t.ws[i] = (twentyRounds s.is)[i] + s.is[i]) ∧
    (∀ (j : Fin 16) (k : Fin 4), t.ksb[4 * j.val + k.val] = t.ws[j].extractLsb' (8 * k.val) 8) ∧
    t.is = s.is ∧ t.busy = false ∧ t.done = true ∧
    t.err = s.err ∧ t.errCode = s.errCode ∧ t.errInfo = s.errInfo

/-- The host rebuilds `BLOCK` from `QR`: eighty `QR` commands on `WS = IS`, then adding `IS`, give the `WS` that
`BLOCK` leaves (R162). -/
def Obligations.BlockIsEightyQuarterRoundCommands : Prop :=
  ∀ s : State, s.ws = s.is →
    ∃ t u, execAll eightyQrs s = .next t ∧ exec .block s = .next u ∧
      ∀ i : Idx, u.ws[i] = t.ws[i] + s.is[i]

/-- `BLOCK` with `IS` all zero leaves `WS` and `KSB` all zero (R159, corner cases). -/
def Obligations.BlockOfZeroIsZero : Prop :=
  ∀ s : State, s.is = Vector.replicate 16 0 →
    ∃ t, exec .block s = .next t ∧ t.ws = Vector.replicate 16 0 ∧ t.ksb = Vector.replicate 64 0

/-- After a `BLOCK`, `KSBW[j]` and `WS[j]` read the same for every `j` (R29). -/
def Obligations.KeystreamWindowEqualsWorkingState : Prop :=
  ∀ (s t : State), exec .block s = .next t →
    ∀ j : Idx, regValue (.ksbw j) t = regValue (.ws j) t

/-- `QR` and `BLOCK` leave everything but their destinations as it was: `QR` writes words of `WS`, `BLOCK` writes
`WS` and `KSB`; no operand register, no `IS`, no byte of memory, nothing of the host's. `CUR` is any value
once `BUSY` is 0 (R135, R159, U14). -/
def Obligations.QrAndBlockLeaveTheRestAlone : Prop :=
  ∀ (s t : State) (i : Instr), i ≠ .stream → exec i s = .next t →
    (i ≠ .block → t.ksb = s.ksb) ∧
    t.is = s.is ∧ t.key = s.key ∧ t.nonce = s.nonce ∧ t.ctr = s.ctr ∧ t.base = s.base ∧ t.len = s.len ∧
    t.plat = s.plat ∧ t.host = s.host ∧ t.sched = s.sched ∧ t.rdata = s.rdata ∧ t.mdata = s.mdata ∧
    t.owned = s.owned ∧ (∀ a, t.mem.read a = s.mem.read a) ∧
    (i.wellFormed = true → t.err = s.err ∧ t.errCode = s.errCode ∧ t.errInfo = s.errInfo)

/-! ### The stream cipher engine -/

/-- `STREAM` completes: byte `i` of the buffer is xored with `Bf(Asm(KEY, add32(CTR, i div 64), NONCE))[i mod 64]`,
no other byte changes, the working registers are zero and the operands unchanged (R173, R175, R177). -/
def Obligations.StreamXorsTheKeystream : Prop :=
  ∀ s : State, StreamReady s →
    ∃ t, exec .stream s = .next t ∧
      (∀ i, i < s.len.toNat → t.mem.read (s.base.toNat + i) =
        s.mem.read (s.base.toNat + i) ^^^
          (blockBytes (assemble s.key (s.ctr + BitVec.ofNat 32 (i / 64)) s.nonce))[i % 64]'(Nat.mod_lt i (by decide))) ∧
      (∀ a, a < s.base.toNat ∨ s.base.toNat + s.len.toNat ≤ a → t.mem.read a = s.mem.read a) ∧
      t.is = Vector.replicate 16 0 ∧ t.ws = Vector.replicate 16 0 ∧ t.ksb = Vector.replicate 64 0 ∧
      t.key = s.key ∧ t.nonce = s.nonce ∧ t.ctr = s.ctr ∧ t.base = s.base ∧ t.len = s.len ∧
      t.busy = false ∧ t.done = true ∧ t.err = s.err ∧ t.errCode = s.errCode ∧ t.errInfo = s.errInfo

/-- The assembled State: the constant, the key words, the counter, the nonce words, each in its place (R171). -/
def Obligations.AssembledStateLayout : Prop :=
  ∀ (key : Vector Word 8) (c : Word) (nonce : Vector Word 3),
    (assemble key c nonce)[0] = 0x61707865 ∧ (assemble key c nonce)[1] = 0x3320646e ∧
    (assemble key c nonce)[2] = 0x79622d32 ∧ (assemble key c nonce)[3] = 0x6b206574 ∧
    (∀ j : Fin 8, (assemble key c nonce)[4 + j.val] = key[j]) ∧
    (assemble key c nonce)[12] = c ∧
    (∀ j : Fin 3, (assemble key c nonce)[13 + j.val] = nonce[j])

/-- The counter wraps silently: block `j` uses counter `(CTR + j) mod 2^32` and no error or flag is raised (R174,
R210). -/
def Obligations.CounterWrapsSilently : Prop :=
  ∀ s : State, StreamReady s →
    ∃ t, exec .stream s = .next t ∧ t.err = s.err ∧ t.errCode = s.errCode ∧ t.errInfo = s.errInfo ∧
      t.done = true ∧
      ∀ j k, k < 64 → 64 * j + k < s.len.toNat →
        t.mem.read (s.base.toNat + (64 * j + k)) ^^^ s.mem.read (s.base.toNat + (64 * j + k)) =
          (blockBytes (assemble s.key (BitVec.ofNat 32 ((s.ctr.toNat + j) % 2 ^ 32)) s.nonce)).toList[k]?.getD 0

/-- `BUS`: with `f` the least index whose byte does not answer, bytes below `f` are transformed, bytes from `f` on
are untouched, the working registers are zeroed, and `ERRINFO` is the failing address (R179, R205, R207). -/
def Obligations.StreamStopsAtTheFirstInaccessibleByte : Prop :=
  ∀ (s : State) (f : Nat), s.mem.wf → s.base.toNat + s.len.toNat ≤ 2 ^ s.plat.aw → s.plat.aw ≤ 32 →
    s.plat.touchesDevice (buffer s) = false → s.plat.touchesRegisters (buffer s) = false →
    f < s.len.toNat → s.plat.accessible (s.base.toNat + f) = false →
    (∀ i, i < f → s.plat.accessible (s.base.toNat + i) = true) →
    ∃ t, exec .stream s = .next t ∧
      (∀ i, i < f → t.mem.read (s.base.toNat + i) =
        s.mem.read (s.base.toNat + i) ^^^ keystreamByte s i) ∧
      (∀ a, a < s.base.toNat ∨ s.base.toNat + f ≤ a → t.mem.read a = s.mem.read a) ∧
      t.is = Vector.replicate 16 0 ∧ t.ws = Vector.replicate 16 0 ∧ t.ksb = Vector.replicate 64 0 ∧
      t.key = s.key ∧ t.nonce = s.nonce ∧ t.ctr = s.ctr ∧ t.base = s.base ∧ t.len = s.len ∧
      t.busy = false ∧ t.done = false ∧ t.err = true ∧ t.errCode = 4 ∧
      t.errInfo.toNat = s.base.toNat + f

/-- An empty buffer: no error, no byte of memory changed, the working registers still zeroed (R182). -/
def Obligations.EmptyStreamOnlyZeroesWorkingRegisters : Prop :=
  ∀ s : State, s.len = 0 → s.base.toNat ≤ 2 ^ s.plat.aw →
    ∃ t, exec .stream s = .next t ∧ blockCount s.len.toNat = 0 ∧ t.mem = s.mem ∧
      (streamPass s).accesses = [] ∧
      t.is = Vector.replicate 16 0 ∧ t.ws = Vector.replicate 16 0 ∧ t.ksb = Vector.replicate 64 0 ∧
      t.done = true ∧ t.busy = false ∧ t.err = s.err

/-- Two `STREAM`s with the same operands restore the data space (R180). -/
def Obligations.StreamTwiceRestoresTheBuffer : Prop :=
  ∀ s : State, StreamReady s →
    ∃ t u, exec .stream s = .next t ∧ exec .stream t = .next u ∧ u.mem = s.mem

/-- A message cut at a multiple of 64 bytes, the host advancing `BASE` and `CTR`, gives the data space of one
`STREAM` over the whole (R181). -/
def Obligations.StreamSplitsAtBlockBoundaries : Prop :=
  ∀ (s : State) (k : Nat), s.plat.aw ≤ 32 → StreamReady s → 64 * k ≤ s.len.toNat →
    ∃ t t1 t2, exec .stream s = .next t ∧
      exec .stream { s with len := BitVec.ofNat 32 (64 * k) } = .next t1 ∧
      exec .stream { t1 with
        base := s.base + BitVec.ofNat 32 (64 * k)
        len := s.len - BitVec.ofNat 32 (64 * k)
        ctr := s.ctr + BitVec.ofNat 32 k } = .next t2 ∧
      t2.mem = t.mem

/-- The engine reads and writes each byte of the buffer exactly once, in ascending order, the read before the write,
and touches nothing else (R66, R69, R175). -/
def Obligations.StreamAccessesEachByteOnceInOrder : Prop :=
  ∀ s : State, StreamReady s →
    (streamPass s).accesses =
      (List.range s.len.toNat).flatMap fun i => [.read (s.base.toNat + i), .write (s.base.toNat + i)]

/-- Whatever a `STREAM` that goes on does, it leaves the operand registers, the platform and the host's side alone,
and every byte outside the buffer (R177, R178, R179). -/
def Obligations.StreamLeavesTheRestAlone : Prop :=
  ∀ (s t : State), exec .stream s = .next t →
    t.key = s.key ∧ t.nonce = s.nonce ∧ t.ctr = s.ctr ∧ t.base = s.base ∧ t.len = s.len ∧
    t.plat = s.plat ∧ t.host = s.host ∧ t.sched = s.sched ∧ t.rdata = s.rdata ∧ t.mdata = s.mdata ∧
    t.owned = s.owned ∧
    (∀ a, a < s.base.toNat ∨ s.base.toNat + s.len.toNat ≤ a → t.mem.read a = s.mem.read a) ∧
    (s.base.toNat + s.len.toNat ≤ 2 ^ s.plat.aw →
      t.is = Vector.replicate 16 0 ∧ t.ws = Vector.replicate 16 0 ∧ t.ksb = Vector.replicate 64 0) ∧
    (t.errCode = 4 ∨ (t.err = s.err ∧ t.errCode = s.errCode ∧ t.errInfo = s.errInfo) ∨
      (2 ^ s.plat.aw < s.base.toNat + s.len.toNat ∧ t.errCode = 3 ∧ t.mem = s.mem ∧
        t.is = s.is ∧ t.ws = s.ws ∧ t.ksb = s.ksb))

/-- The result of a command does not depend on what earlier commands left: `BLOCK` not on `WS` or `KSB` (R159),
`STREAM` not on `IS`, `WS`, `KSB` (R177, R181). -/
def Obligations.CommandsIgnoreOldWorkingRegisters : Prop :=
  (∀ (s : State) (ws : Vec16) (ksb : Vector Byte 64),
    exec .block { s with ws := ws, ksb := ksb } = exec .block s) ∧
  (∀ (s : State) (is ws : Vec16) (ksb : Vector Byte 64), s.base.toNat + s.len.toNat ≤ 2 ^ s.plat.aw →
    exec .stream { s with is := is, ws := ws, ksb := ksb } = exec .stream s)

/-- What the model gives no successor: a buffer over the unit's own registers (R73, U8) or over memory that is not
ordinary (R66, U7), in range. -/
def Obligations.StreamOverForbiddenMemoryIsRefused : Prop :=
  ∀ s : State, s.base.toNat + s.len.toNat ≤ 2 ^ s.plat.aw →
    (s.plat.touchesRegisters (buffer s) = true → exec .stream s = .refused .coversRegisters) ∧
    (s.plat.touchesRegisters (buffer s) = false → s.plat.touchesDevice (buffer s) = true →
      exec .stream s = .refused .notOrdinaryMemory)

/-! ### The host's side -/

/-- Command issue: the checks in their order, and what each outcome changes (R113, R114, R202, R203, R204). What the
model's own record `owned` holds after acceptance is left open here. -/
def Obligations.CommandIssueFollowsTheOrderOfChecks : Prop :=
  ∀ (s : State) (w : Word),
    (s.busy = true → step (s.withHostAction (.wr 0 32 w)) = .next s) ∧
    (s.busy = false → s.err = true → step (s.withHostAction (.wr 0 32 w)) = .next s) ∧
    (s.busy = false → s.err = false →
      ((∃ why, decode w = .illegal why) → step (s.withHostAction (.wr 0 32 w)) =
        .next { s with done := false, err := true, errCode := 1, errInfo := w }) ∧
      (∀ a b c d, decode w = .command (.qr a b c d) → indicesDistinct a b c d = false →
        step (s.withHostAction (.wr 0 32 w)) =
          .next { s with done := false, err := true, errCode := 2, errInfo := w }) ∧
      (decode w = .command .stream → 2 ^ s.plat.aw < s.base.toNat + s.len.toNat →
        step (s.withHostAction (.wr 0 32 w)) =
          .next { s with done := false, err := true, errCode := 3, errInfo := w }) ∧
      (∀ i, decode w = .command i → i.wellFormed = true →
        (i = .stream → s.base.toNat + s.len.toNat ≤ 2 ^ s.plat.aw) →
        ∃ o, step (s.withHostAction (.wr 0 32 w)) =
          .next { s with done := false, busy := true, cur := w, owned := o }))

/-- A register write while idle changes the named register and nothing else; `BASE` and `LEN` keep the low `AW` and
`LENW` bits; `ERRINFO`, `KSBW` and reserved offsets ignore it (R28, R34, R111). -/
def Obligations.RegisterWriteChangesOnlyThatRegister : Prop :=
  ∀ (s : State) (v : Word), s.busy = false →
    (∀ j, step (s.withHostAction (.wr (Reg.key j).offset 32 v)) = .next { s with key := s.key.set j v }) ∧
    (∀ j, step (s.withHostAction (.wr (Reg.nonce j).offset 32 v)) = .next { s with nonce := s.nonce.set j v }) ∧
    (∀ i, step (s.withHostAction (.wr (Reg.is i).offset 32 v)) = .next { s with is := s.is.set i v }) ∧
    (∀ i, step (s.withHostAction (.wr (Reg.ws i).offset 32 v)) = .next { s with ws := s.ws.set i v }) ∧
    step (s.withHostAction (.wr 0x018 32 v)) = .next { s with ctr := v } ∧
    (∃ x : Word, step (s.withHostAction (.wr 0x010 32 v)) = .next { s with base := x } ∧
      ∀ i, x.getLsbD i = (v.getLsbD i && decide (i < s.plat.aw))) ∧
    (∃ x : Word, step (s.withHostAction (.wr 0x014 32 v)) = .next { s with len := x } ∧
      ∀ i, x.getLsbD i = (v.getLsbD i && decide (i < s.plat.lenw))) ∧
    (∀ off : BitVec 9, off.toNat % 4 = 0 →
      regAt off = .errInfo ∨ (∃ j, regAt off = .ksbw j) ∨ regAt off = .reserved →
      step (s.withHostAction (.wr off 32 v)) = .next s)

/-- A register read while idle returns the value of R112 and changes no register; reading `STATUS` gives the host its
buffers back (R70 b, R112; log entries 11, 18). -/
def Obligations.RegisterReadReturnsTheContents : Prop :=
  ∀ s : State, s.busy = false →
    (∀ j, step (s.withHostAction (.rd (Reg.key j).offset 32)) = .next { s with rdata := s.key[j] }) ∧
    (∀ j, step (s.withHostAction (.rd (Reg.nonce j).offset 32)) = .next { s with rdata := s.nonce[j] }) ∧
    (∀ i, step (s.withHostAction (.rd (Reg.is i).offset 32)) = .next { s with rdata := s.is[i] }) ∧
    (∀ i, step (s.withHostAction (.rd (Reg.ws i).offset 32)) = .next { s with rdata := s.ws[i] }) ∧
    (∀ j, step (s.withHostAction (.rd (Reg.ksbw j).offset 32)) = .next { s with
      rdata := wordLe s.ksb[4 * j.val] s.ksb[4 * j.val + 1] s.ksb[4 * j.val + 2] s.ksb[4 * j.val + 3] }) ∧
    step (s.withHostAction (.rd 0x018 32)) = .next { s with rdata := s.ctr } ∧
    step (s.withHostAction (.rd 0x010 32)) = .next { s with rdata := s.base } ∧
    step (s.withHostAction (.rd 0x014 32)) = .next { s with rdata := s.len } ∧
    step (s.withHostAction (.rd 0x008 32)) = .next { s with rdata := s.errInfo } ∧
    step (s.withHostAction (.rd 0x000 32)) = .next { s with rdata := 0 } ∧
    step (s.withHostAction (.rd 0x004 32)) = .next { s with owned := [], rdata := statusWord s } ∧
    (∀ off : BitVec 9, off.toNat % 4 = 0 → regAt off = .reserved →
      step (s.withHostAction (.rd off 32)) = .next { s with rdata := 0 })

/-- The bits of `STATUS`: `BUSY` 0, `DONE` 1, `ERR` 2, `ERRCODE` 11:8, every other bit 0 (R30, R112). -/
def Obligations.StatusWordLayout : Prop :=
  ∀ s : State,
    (statusWord s).getLsbD 0 = s.busy ∧ (statusWord s).getLsbD 1 = s.done ∧
    (statusWord s).getLsbD 2 = s.err ∧
    (∀ i, 3 ≤ i → i ≤ 7 → (statusWord s).getLsbD i = false) ∧
    (∀ i, i < 4 → (statusWord s).getLsbD (8 + i) = s.errCode.getLsbD i) ∧
    (∀ i, 12 ≤ i → (statusWord s).getLsbD i = false)

/-- A write to `STATUS` while idle: bit 1 clears `DONE`, bit 2 clears `ERR`, `ERRCODE`, `ERRINFO`, every other bit is
ignored and nothing else changes (R117, R208). -/
def Obligations.StatusWriteClearsWhatItsBitsName : Prop :=
  ∀ (s : State) (v : Word), s.busy = false →
    step (s.withHostAction (.wr 0x004 32 v)) = .next { s with
      done := s.done && !v.getLsbD 1
      err := s.err && !v.getLsbD 2
      errCode := if v.getLsbD 2 then 0 else s.errCode
      errInfo := if v.getLsbD 2 then 0 else s.errInfo }

/-- While busy, a write to any register is ignored (R116). -/
def Obligations.WritesWhileBusyAreIgnored : Prop :=
  ∀ (s : State) (off : BitVec 9) (v : Word), s.busy = true → off.toNat % 4 = 0 →
    step (s.withHostAction (.wr off 32 v)) = .next s

/-- While busy, operand and status registers read as they are, and `IS`, `WS`, `KSBW` read as a free value, new at
each read; no register changes (R116, U4; log entry 9). -/
def Obligations.ReadsWhileBusy : Prop :=
  ∀ (s : State) (off : BitVec 9), s.busy = true → off.toNat % 4 = 0 →
    ((regAt off).working = false →
      step (s.withHostAction (.rd off 32)) = .next { s with rdata := regValue (regAt off) s }) ∧
    ((regAt off).working = true →
      step (s.withHostAction (.rd off 32)) =
        .next { s with rdata := Config.freeWord s.draws, draws := s.draws + 1 })

/-- A register access that is not an aligned 32-bit one is refused by the model (R34). -/
def Obligations.UndefinedRegisterAccessIsRefused : Prop :=
  ∀ (s : State) (off : BitVec 9) (width : Nat) (v : Word), width ≠ 32 ∨ off.toNat % 4 ≠ 0 →
    step (s.withHostAction (.wr off width v)) = .refused .undefinedAccess ∧
    step (s.withHostAction (.rd off width)) = .refused .undefinedAccess

/-- The host's own accesses to the data space: inside it, outside the engine's buffers and in ordinary memory, `MEMW`
places the bytes and `MEMR` returns them, and nothing else changes (R61, R97). That this needs no `Accessible` is the
model's choice (log entry 22), and so is that several bytes are one step (log entry 21). -/
def Obligations.HostDataAccessesPlaceAndReturnBytes : Prop :=
  ∀ (s : State) (addr : Nat) (bytes : List Byte), s.mem.wf → addr + bytes.length ≤ 2 ^ s.plat.aw →
    (∀ r ∈ s.owned, r.meets ⟨addr, bytes.length⟩ = false) →
    s.plat.touchesDevice ⟨addr, bytes.length⟩ = false →
    s.plat.touchesRegisters ⟨addr, bytes.length⟩ = false →
    (∃ m, step (s.withHostAction (.memw addr bytes)) = .next { s with mem := m } ∧
      (∀ i (h : i < bytes.length), m.read (addr + i) = bytes[i]) ∧
      (∀ a, a < addr ∨ addr + bytes.length ≤ a → m.read a = s.mem.read a)) ∧
    (∃ l, step (s.withHostAction (.memr addr bytes.length)) = .next { s with mdata := l } ∧
      l = (List.range bytes.length).map fun i => s.mem.read (addr + i))

/-- A host access to a byte of a buffer that belongs to the engine is refused as a race (R70 c, R239). -/
def Obligations.HostAccessToABusyBufferIsRefused : Prop :=
  ∀ (s : State) (r : Region) (addr : Nat) (bytes : List Byte), r ∈ s.owned →
    addr + bytes.length ≤ 2 ^ s.plat.aw →
    (∃ i, i < bytes.length ∧ r.contains (addr + i) = true) →
    step (s.withHostAction (.memw addr bytes)) = .refused .bufferRace ∧
    step (s.withHostAction (.memr addr bytes.length)) = .refused .bufferRace

/-! ### Errors -/

/-- `raise E(info)`: the four fields it sets, and nothing else (R207). -/
def Obligations.RaiseRecordsTheError : Prop :=
  ∀ (e : Err) (info : Word) (s : State),
    raise e info s = { s with
      err := true
      errCode := match e with
        | .illegalCmd => 1
        | .badIndex => 2
        | .range => 3
        | .bus => 4
      errInfo := info
      busy := false
      done := false }

/-- An error stays until the host writes 1 to `STATUS` bit 2 or reset comes: no other step changes `ERR`, `ERRCODE` or
`ERRINFO` while `ERR = 1`, an engine turn with that write pending among them (R113, R208). -/
def Obligations.ErrorStaysUntilCleared : Prop :=
  ∀ (s t : State), StatusLegal s → s.err = true → step s = .next t →
    (t.err = true ∧ t.errCode = s.errCode ∧ t.errInfo = s.errInfo) ∨
    (∃ rest, s.sched = .reset :: rest) ∨
    (hostMoves s ∧ ∃ v rest, s.host = .wr 0x004 32 v :: rest ∧ v.getLsbD 2 = true)

/-! ### Reset -/

/-- The machine right after reset: every register of R41 at its value, `STATUS` reads 0. -/
def Obligations.ResetValues : Prop :=
  (∀ i : Idx, State.reset.ws[i] = 0 ∧ State.reset.is[i] = 0) ∧ (∀ i : Fin 64, State.reset.ksb[i] = 0) ∧
  (∀ j : Fin 8, State.reset.key[j] = 0) ∧ (∀ j : Fin 3, State.reset.nonce[j] = 0) ∧
  State.reset.ctr = 0 ∧ State.reset.base = 0 ∧ State.reset.len = 0 ∧
  State.reset.busy = false ∧ State.reset.done = false ∧ State.reset.err = false ∧
  State.reset.errCode = 0 ∧ statusWord State.reset = 0 ∧ State.reset.errInfo = 0

/-- Reset as an event: every register takes its reset value, and the data space is not touched unless a `STREAM` was
busy. The platform and the model's own fields of the host's side are as they were (log entry 18), the record of
owned buffers among them, so reset gives no buffer back to the host (log entry 11). Reset during a `STREAM` over
memory outside the defined behaviour is the one case left out (R41, R230; log entry 10). -/
def Obligations.ResetEventClearsTheUnit : Prop :=
  ∀ s : State, (streaming s = true →
      s.plat.touchesDevice (buffer s) = false ∧ s.plat.touchesRegisters (buffer s) = false) →
    ∃ t, step s.withResetTurn = .next t ∧
      (∀ i : Idx, t.ws[i] = 0 ∧ t.is[i] = 0) ∧ (∀ i : Fin 64, t.ksb[i] = 0) ∧
      (∀ j : Fin 8, t.key[j] = 0) ∧ (∀ j : Fin 3, t.nonce[j] = 0) ∧
      t.ctr = 0 ∧ t.base = 0 ∧ t.len = 0 ∧ statusWord t = 0 ∧ t.errInfo = 0 ∧
      (streaming s = false → t.mem = s.mem) ∧ t.plat = s.plat ∧ t.host = s.host ∧ t.sched = s.sched ∧
      t.rdata = s.rdata ∧ t.mdata = s.mdata ∧ t.owned = s.owned

/-- Reset while a `STREAM` is busy: the registers are cleared, each buffer byte is its old value or its transformed
value, whichever the free value says, and no byte outside changes (R231). That reset goes on and draws each byte,
where R231 also lets a model refuse it, is the model's choice (log entry 10). -/
def Obligations.ResetDuringStreamLeavesOldOrTransformedBytes : Prop :=
  ∀ s : State, s.mem.wf → streaming s = true →
    s.plat.touchesDevice (buffer s) = false → s.plat.touchesRegisters (buffer s) = false →
    ∃ t, step s.withResetTurn = .next t ∧ t.key = Vector.replicate 8 0 ∧ t.busy = false ∧
      (∀ i, i < s.len.toNat →
        t.mem.read (s.base.toNat + i) = s.mem.read (s.base.toNat + i) ∨
        t.mem.read (s.base.toNat + i) = s.mem.read (s.base.toNat + i) ^^^ keystreamByte s i) ∧
      (∀ a, a < s.base.toNat ∨ s.base.toNat + s.len.toNat ≤ a → t.mem.read a = s.mem.read a)

/-! ### The whole machine -/

/-- When the engine moves and `CUR` holds a command, a step is `exec` of that command, the turn taken off the
schedule (R115); with no schedule left the engine moves while busy (R118; log entry 1). While the unit is idle the
engine has no step (R110, R115), so its turn only comes off the schedule, which is the model's form of it (log
entry 1). -/
def Obligations.StepRunsTheLatchedCommand : Prop :=
  ∀ s : State,
    (∀ i, s.busy = true → decode s.cur = .command i →
      (∀ rest, s.sched = .engine :: rest → step s = exec i { s with sched := rest }) ∧
      (s.sched = [] → step s = exec i s)) ∧
    (s.busy = false → ∀ rest, s.sched = .engine :: rest → step s = .next { s with sched := rest })

/-- The step after `withFetchWord` performs the word's command (log entry 3). -/
def Obligations.FetchWordRunsItsCommand : Prop :=
  ∀ (s : State) (i : Instr),
    step (s.withFetchWord 32 (encode i).toNat) =
      exec i { s with
        busy := true
        cur := encode i
        done := false
        err := false
        errCode := 0
        errInfo := 0
        owned := (if i = .stream then [⟨s.base.toNat, s.len.toNat⟩] else []) ++ s.owned }

/-- The state after reset meets the invariant. -/
def Obligations.ResetMeetsTheInvariant : Prop := Inv State.reset

/-- Every step keeps the invariant: legal status bits, an admissible command while busy, registers within their
widths, the data space canonical and inside `[0, 2^AW)` (R28, R30, R61, R113, R115). -/
def Obligations.EveryStepKeepsTheInvariant : Prop :=
  ∀ (s t : State), Inv s → step s = .next t → Inv t

/-- The three status invariants of R30 hold in every reachable state, whatever script, schedule, platform and memory
the run was launched with (R30). -/
def Obligations.StatusIsLegalInEveryReachableState : Prop :=
  ∀ s : State, Reachable s →
    (s.busy = true → s.done = false ∧ s.err = false) ∧ ¬ (s.done = true ∧ s.err = true) ∧
    (s.err = false → s.errCode = 0)

/-- No step changes the platform's parameters (U12, U13; log entry 5). -/
def Obligations.NoStepChangesThePlatform : Prop :=
  ∀ (s t : State), step s = .next t → t.plat = s.plat

/-- The data space changes only by the completion of a `STREAM`, a `MEMW` of the host at a step of the host's, or a
reset that abandons a `STREAM` (R60, R69, R230, R231). -/
def Obligations.OnlyStreamHostAndResetChangeMemory : Prop :=
  ∀ (s t : State), step s = .next t → t.mem ≠ s.mem →
    (s.busy = true ∧ decode s.cur = .command .stream ∧ ∀ rest, s.sched ≠ .host :: rest) ∨
    (hostMoves s ∧ ∃ addr bytes rest, s.host = .memw addr bytes :: rest)

/-- The engine never writes an operand register (R25, R26, R27, R28). -/
def Obligations.EngineNeverWritesOperands : Prop :=
  ∀ (s t : State), step s.withEngineTurn = .next t →
    t.key = s.key ∧ t.nonce = s.nonce ∧ t.ctr = s.ctr ∧ t.base = s.base ∧ t.len = s.len

/-- While busy, no action of the host changes a register of the unit or the latched command (R35, R116). -/
def Obligations.HostChangesNoRegisterWhileBusy : Prop :=
  ∀ (s t : State) (act : HostAction), s.busy = true → step (s.withHostAction act) = .next t →
    t.ws = s.ws ∧ t.is = s.is ∧ t.ksb = s.ksb ∧ t.key = s.key ∧ t.nonce = s.nonce ∧ t.ctr = s.ctr ∧
    t.base = s.base ∧ t.len = s.len ∧ t.cur = s.cur ∧ t.busy = true ∧ t.done = s.done ∧ t.err = s.err ∧
    t.errCode = s.errCode ∧ t.errInfo = s.errInfo ∧ t.owned = s.owned

/-- An accepted command is never rejected at completion: the engine raises nothing but `BUS`, and that only for
`STREAM` (R115). -/
def Obligations.CompletionRaisesOnlyBus : Prop :=
  ∀ (s t : State), Inv s → s.busy = true → step s.withEngineTurn = .next t →
    (t.done = true ∧ t.err = false) ∨
    (decode s.cur = .command .stream ∧ t.done = false ∧ t.err = true ∧ t.errCode = 4)

/-- The engine's turn ends every accepted command: the unit is idle again, unless the command is a `STREAM` over
memory the spec puts outside its defined behaviour (R66, R73, R115, R118). The refusals are log entries 14 and 15;
for a word in `CUR` that issue never accepts, going idle is the model's choice (log entry 4). -/
def Obligations.EngineTurnEndsTheCommand : Prop :=
  ∀ s : State, s.busy = true →
    (∃ t, step s.withEngineTurn = .next t ∧ t.busy = false) ∨
    (decode s.cur = .command .stream ∧
      ((s.plat.touchesRegisters (buffer s) = true ∧ step s.withEngineTurn = .refused .coversRegisters) ∨
       (s.plat.touchesDevice (buffer s) = true ∧ step s.withEngineTurn = .refused .notOrdinaryMemory)))

/-- Polling ends: with the schedule used up, a `WAIT` on a busy unit is over two steps later, the host having read
`STATUS` with `BUSY = 0` (R98, R118). If the `WAIT` was the last action, that read ends the run, in error exactly
when the unit shows `ERR = 1`. A run never ends while the unit is busy (R243). The order of turns is log entry 1,
and which read ends a run log entry 23. -/
def Obligations.WaitEndsInTwoSteps : Prop :=
  (∀ (s t : State) (rest : List HostAction), s.busy = true → s.sched = [] → s.host = .wait :: rest →
    step s = .next t →
    t.busy = false ∧ ∃ u, step t = .next u ∧ u.host = rest ∧ u.rdata = statusWord t ∧ u.owned = [] ∧
      (rest = [] → ended s u ∧ (endedInError s u ↔ u.err = true))) ∧
  (∀ start t : State, ended start t → t.host = [] ∧ t.busy = false ∧ t.rdata = statusWord t)
end

