-- ==== Sys2Proof/Laws/Arith.lean ====
section
/-! SUPPORT. The laws of the arithmetic (R130 to R132) and of the little-endian conversions (R62). -/

namespace Sys2Proof.Machine

theorem xor8_xor8 (p k : Byte) : xor8 (xor8 p k) k = p := by
  simp [xor8]

theorem byteOf_toNat (w : Word) (k : Nat) : (byteOf w k).toNat = w.toNat / 2 ^ (8 * k) % 256 := by
  simp [byteOf, BitVec.extractLsb'_toNat, Nat.shiftRight_eq_div_pow]

/-- A register of `k` bits keeps the low `k` bits of a write. -/
theorem keepLow_getLsbD (k : Nat) (v : Word) (i : Nat) :
    (keepLow k v).getLsbD i = (v.getLsbD i && decide (i < k)) := by
  simp only [keepLow, BitVec.getLsbD_ofNat, Nat.testBit_mod_two_pow, BitVec.testBit_toNat]
  by_cases hi : i < 32
  · simp [hi, Bool.and_comm]
  · simp [hi, BitVec.getLsbD_of_ge v i (by omega)]

theorem keepLow_toNat (k : Nat) (v : Word) : (keepLow k v).toNat = v.toNat % 2 ^ k := by
  simp only [keepLow, BitVec.toNat_ofNat]
  exact Nat.mod_eq_of_lt (Nat.lt_of_le_of_lt (Nat.mod_le _ _) v.isLt)

theorem keepLow_lt (k : Nat) (v : Word) : (keepLow k v).toNat < 2 ^ k := by
  rw [keepLow_toNat]
  exact Nat.mod_lt _ (by positivity)

end Sys2Proof.Machine
end

