-- ==== Sys2Proof/Laws/State.lean ====
section
/-! SUPPORT. What each shared operation leaves in each field of the state, so that no proof unfolds a record update. -/

namespace Sys2Proof.Machine

/-! ### `raise` -/

@[simp] theorem raise_ws (e : Err) (info : Word) (s : State) :
    (raise e info s).ws = s.ws := rfl
@[simp] theorem raise_is (e : Err) (info : Word) (s : State) :
    (raise e info s).is = s.is := rfl
@[simp] theorem raise_ksb (e : Err) (info : Word) (s : State) :
    (raise e info s).ksb = s.ksb := rfl
@[simp] theorem raise_key (e : Err) (info : Word) (s : State) :
    (raise e info s).key = s.key := rfl
@[simp] theorem raise_nonce (e : Err) (info : Word) (s : State) :
    (raise e info s).nonce = s.nonce := rfl
@[simp] theorem raise_ctr (e : Err) (info : Word) (s : State) :
    (raise e info s).ctr = s.ctr := rfl
@[simp] theorem raise_base (e : Err) (info : Word) (s : State) :
    (raise e info s).base = s.base := rfl
@[simp] theorem raise_len (e : Err) (info : Word) (s : State) :
    (raise e info s).len = s.len := rfl
@[simp] theorem raise_busy (e : Err) (info : Word) (s : State) :
    (raise e info s).busy = false := rfl
@[simp] theorem raise_done (e : Err) (info : Word) (s : State) :
    (raise e info s).done = false := rfl
@[simp] theorem raise_err (e : Err) (info : Word) (s : State) :
    (raise e info s).err = true := rfl
@[simp] theorem raise_errCode (e : Err) (info : Word) (s : State) :
    (raise e info s).errCode = e.code := rfl
@[simp] theorem raise_errInfo (e : Err) (info : Word) (s : State) :
    (raise e info s).errInfo = info := rfl
@[simp] theorem raise_cur (e : Err) (info : Word) (s : State) :
    (raise e info s).cur = s.cur := rfl
@[simp] theorem raise_mem (e : Err) (info : Word) (s : State) :
    (raise e info s).mem = s.mem := rfl
@[simp] theorem raise_plat (e : Err) (info : Word) (s : State) :
    (raise e info s).plat = s.plat := rfl
@[simp] theorem raise_host (e : Err) (info : Word) (s : State) :
    (raise e info s).host = s.host := rfl
@[simp] theorem raise_sched (e : Err) (info : Word) (s : State) :
    (raise e info s).sched = s.sched := rfl
@[simp] theorem raise_rdata (e : Err) (info : Word) (s : State) :
    (raise e info s).rdata = s.rdata := rfl
@[simp] theorem raise_mdata (e : Err) (info : Word) (s : State) :
    (raise e info s).mdata = s.mdata := rfl
@[simp] theorem raise_owned (e : Err) (info : Word) (s : State) :
    (raise e info s).owned = s.owned := rfl
@[simp] theorem raise_draws (e : Err) (info : Word) (s : State) :
    (raise e info s).draws = s.draws := rfl

/-! ### `clearError` -/

@[simp] theorem clearError_ws (s : State) :
    (clearError s).ws = s.ws := rfl
@[simp] theorem clearError_is (s : State) :
    (clearError s).is = s.is := rfl
@[simp] theorem clearError_ksb (s : State) :
    (clearError s).ksb = s.ksb := rfl
@[simp] theorem clearError_key (s : State) :
    (clearError s).key = s.key := rfl
@[simp] theorem clearError_nonce (s : State) :
    (clearError s).nonce = s.nonce := rfl
@[simp] theorem clearError_ctr (s : State) :
    (clearError s).ctr = s.ctr := rfl
@[simp] theorem clearError_base (s : State) :
    (clearError s).base = s.base := rfl
@[simp] theorem clearError_len (s : State) :
    (clearError s).len = s.len := rfl
@[simp] theorem clearError_busy (s : State) :
    (clearError s).busy = s.busy := rfl
@[simp] theorem clearError_done (s : State) :
    (clearError s).done = s.done := rfl
@[simp] theorem clearError_err (s : State) :
    (clearError s).err = false := rfl
@[simp] theorem clearError_errCode (s : State) :
    (clearError s).errCode = 0 := rfl
@[simp] theorem clearError_errInfo (s : State) :
    (clearError s).errInfo = 0 := rfl
@[simp] theorem clearError_cur (s : State) :
    (clearError s).cur = s.cur := rfl
@[simp] theorem clearError_mem (s : State) :
    (clearError s).mem = s.mem := rfl
@[simp] theorem clearError_plat (s : State) :
    (clearError s).plat = s.plat := rfl
@[simp] theorem clearError_host (s : State) :
    (clearError s).host = s.host := rfl
@[simp] theorem clearError_sched (s : State) :
    (clearError s).sched = s.sched := rfl
@[simp] theorem clearError_rdata (s : State) :
    (clearError s).rdata = s.rdata := rfl
@[simp] theorem clearError_mdata (s : State) :
    (clearError s).mdata = s.mdata := rfl
@[simp] theorem clearError_owned (s : State) :
    (clearError s).owned = s.owned := rfl
@[simp] theorem clearError_draws (s : State) :
    (clearError s).draws = s.draws := rfl

/-! ### `accept` -/

@[simp] theorem accept_ws (w : Word) (s : State) :
    (accept w s).ws = s.ws := rfl
@[simp] theorem accept_is (w : Word) (s : State) :
    (accept w s).is = s.is := rfl
@[simp] theorem accept_ksb (w : Word) (s : State) :
    (accept w s).ksb = s.ksb := rfl
@[simp] theorem accept_key (w : Word) (s : State) :
    (accept w s).key = s.key := rfl
@[simp] theorem accept_nonce (w : Word) (s : State) :
    (accept w s).nonce = s.nonce := rfl
@[simp] theorem accept_ctr (w : Word) (s : State) :
    (accept w s).ctr = s.ctr := rfl
@[simp] theorem accept_base (w : Word) (s : State) :
    (accept w s).base = s.base := rfl
@[simp] theorem accept_len (w : Word) (s : State) :
    (accept w s).len = s.len := rfl
@[simp] theorem accept_busy (w : Word) (s : State) :
    (accept w s).busy = true := rfl
@[simp] theorem accept_done (w : Word) (s : State) :
    (accept w s).done = s.done := rfl
@[simp] theorem accept_err (w : Word) (s : State) :
    (accept w s).err = s.err := rfl
@[simp] theorem accept_errCode (w : Word) (s : State) :
    (accept w s).errCode = s.errCode := rfl
@[simp] theorem accept_errInfo (w : Word) (s : State) :
    (accept w s).errInfo = s.errInfo := rfl
@[simp] theorem accept_cur (w : Word) (s : State) :
    (accept w s).cur = w := rfl
@[simp] theorem accept_mem (w : Word) (s : State) :
    (accept w s).mem = s.mem := rfl
@[simp] theorem accept_plat (w : Word) (s : State) :
    (accept w s).plat = s.plat := rfl
@[simp] theorem accept_host (w : Word) (s : State) :
    (accept w s).host = s.host := rfl
@[simp] theorem accept_sched (w : Word) (s : State) :
    (accept w s).sched = s.sched := rfl
@[simp] theorem accept_rdata (w : Word) (s : State) :
    (accept w s).rdata = s.rdata := rfl
@[simp] theorem accept_mdata (w : Word) (s : State) :
    (accept w s).mdata = s.mdata := rfl
@[simp] theorem accept_owned (w : Word) (s : State) :
    (accept w s).owned = if decode w = .command .stream then buffer s :: s.owned else s.owned := rfl
@[simp] theorem accept_draws (w : Word) (s : State) :
    (accept w s).draws = s.draws := rfl

/-! ### `leaveBusy` -/

@[simp] theorem leaveBusy_ws (s : State) :
    (leaveBusy s).ws = s.ws := rfl
@[simp] theorem leaveBusy_is (s : State) :
    (leaveBusy s).is = s.is := rfl
@[simp] theorem leaveBusy_ksb (s : State) :
    (leaveBusy s).ksb = s.ksb := rfl
@[simp] theorem leaveBusy_key (s : State) :
    (leaveBusy s).key = s.key := rfl
@[simp] theorem leaveBusy_nonce (s : State) :
    (leaveBusy s).nonce = s.nonce := rfl
@[simp] theorem leaveBusy_ctr (s : State) :
    (leaveBusy s).ctr = s.ctr := rfl
@[simp] theorem leaveBusy_base (s : State) :
    (leaveBusy s).base = s.base := rfl
@[simp] theorem leaveBusy_len (s : State) :
    (leaveBusy s).len = s.len := rfl
@[simp] theorem leaveBusy_busy (s : State) :
    (leaveBusy s).busy = false := rfl
@[simp] theorem leaveBusy_done (s : State) :
    (leaveBusy s).done = s.done := rfl
@[simp] theorem leaveBusy_err (s : State) :
    (leaveBusy s).err = s.err := rfl
@[simp] theorem leaveBusy_errCode (s : State) :
    (leaveBusy s).errCode = s.errCode := rfl
@[simp] theorem leaveBusy_errInfo (s : State) :
    (leaveBusy s).errInfo = s.errInfo := rfl
@[simp] theorem leaveBusy_cur (s : State) :
    (leaveBusy s).cur = Config.freeWord s.draws := rfl
@[simp] theorem leaveBusy_mem (s : State) :
    (leaveBusy s).mem = s.mem := rfl
@[simp] theorem leaveBusy_plat (s : State) :
    (leaveBusy s).plat = s.plat := rfl
@[simp] theorem leaveBusy_host (s : State) :
    (leaveBusy s).host = s.host := rfl
@[simp] theorem leaveBusy_sched (s : State) :
    (leaveBusy s).sched = s.sched := rfl
@[simp] theorem leaveBusy_rdata (s : State) :
    (leaveBusy s).rdata = s.rdata := rfl
@[simp] theorem leaveBusy_mdata (s : State) :
    (leaveBusy s).mdata = s.mdata := rfl
@[simp] theorem leaveBusy_owned (s : State) :
    (leaveBusy s).owned = s.owned := rfl
@[simp] theorem leaveBusy_draws (s : State) :
    (leaveBusy s).draws = s.draws + 1 := rfl

/-! ### `complete` -/

@[simp] theorem complete_ws (s : State) :
    (complete s).ws = s.ws := rfl
@[simp] theorem complete_is (s : State) :
    (complete s).is = s.is := rfl
@[simp] theorem complete_ksb (s : State) :
    (complete s).ksb = s.ksb := rfl
@[simp] theorem complete_key (s : State) :
    (complete s).key = s.key := rfl
@[simp] theorem complete_nonce (s : State) :
    (complete s).nonce = s.nonce := rfl
@[simp] theorem complete_ctr (s : State) :
    (complete s).ctr = s.ctr := rfl
@[simp] theorem complete_base (s : State) :
    (complete s).base = s.base := rfl
@[simp] theorem complete_len (s : State) :
    (complete s).len = s.len := rfl
@[simp] theorem complete_busy (s : State) :
    (complete s).busy = false := rfl
@[simp] theorem complete_done (s : State) :
    (complete s).done = true := rfl
@[simp] theorem complete_err (s : State) :
    (complete s).err = s.err := rfl
@[simp] theorem complete_errCode (s : State) :
    (complete s).errCode = s.errCode := rfl
@[simp] theorem complete_errInfo (s : State) :
    (complete s).errInfo = s.errInfo := rfl
@[simp] theorem complete_cur (s : State) :
    (complete s).cur = Config.freeWord s.draws := rfl
@[simp] theorem complete_mem (s : State) :
    (complete s).mem = s.mem := rfl
@[simp] theorem complete_plat (s : State) :
    (complete s).plat = s.plat := rfl
@[simp] theorem complete_host (s : State) :
    (complete s).host = s.host := rfl
@[simp] theorem complete_sched (s : State) :
    (complete s).sched = s.sched := rfl
@[simp] theorem complete_rdata (s : State) :
    (complete s).rdata = s.rdata := rfl
@[simp] theorem complete_mdata (s : State) :
    (complete s).mdata = s.mdata := rfl
@[simp] theorem complete_owned (s : State) :
    (complete s).owned = s.owned := rfl
@[simp] theorem complete_draws (s : State) :
    (complete s).draws = s.draws + 1 := rfl

/-! ### `abort` -/

@[simp] theorem abort_ws (e : Err) (info : Word) (s : State) :
    (abort e info s).ws = s.ws := rfl
@[simp] theorem abort_is (e : Err) (info : Word) (s : State) :
    (abort e info s).is = s.is := rfl
@[simp] theorem abort_ksb (e : Err) (info : Word) (s : State) :
    (abort e info s).ksb = s.ksb := rfl
@[simp] theorem abort_key (e : Err) (info : Word) (s : State) :
    (abort e info s).key = s.key := rfl
@[simp] theorem abort_nonce (e : Err) (info : Word) (s : State) :
    (abort e info s).nonce = s.nonce := rfl
@[simp] theorem abort_ctr (e : Err) (info : Word) (s : State) :
    (abort e info s).ctr = s.ctr := rfl
@[simp] theorem abort_base (e : Err) (info : Word) (s : State) :
    (abort e info s).base = s.base := rfl
@[simp] theorem abort_len (e : Err) (info : Word) (s : State) :
    (abort e info s).len = s.len := rfl
@[simp] theorem abort_busy (e : Err) (info : Word) (s : State) :
    (abort e info s).busy = false := rfl
@[simp] theorem abort_done (e : Err) (info : Word) (s : State) :
    (abort e info s).done = false := rfl
@[simp] theorem abort_err (e : Err) (info : Word) (s : State) :
    (abort e info s).err = true := rfl
@[simp] theorem abort_errCode (e : Err) (info : Word) (s : State) :
    (abort e info s).errCode = e.code := rfl
@[simp] theorem abort_errInfo (e : Err) (info : Word) (s : State) :
    (abort e info s).errInfo = info := rfl
@[simp] theorem abort_cur (e : Err) (info : Word) (s : State) :
    (abort e info s).cur = Config.freeWord s.draws := rfl
@[simp] theorem abort_mem (e : Err) (info : Word) (s : State) :
    (abort e info s).mem = s.mem := rfl
@[simp] theorem abort_plat (e : Err) (info : Word) (s : State) :
    (abort e info s).plat = s.plat := rfl
@[simp] theorem abort_host (e : Err) (info : Word) (s : State) :
    (abort e info s).host = s.host := rfl
@[simp] theorem abort_sched (e : Err) (info : Word) (s : State) :
    (abort e info s).sched = s.sched := rfl
@[simp] theorem abort_rdata (e : Err) (info : Word) (s : State) :
    (abort e info s).rdata = s.rdata := rfl
@[simp] theorem abort_mdata (e : Err) (info : Word) (s : State) :
    (abort e info s).mdata = s.mdata := rfl
@[simp] theorem abort_owned (e : Err) (info : Word) (s : State) :
    (abort e info s).owned = s.owned := rfl
@[simp] theorem abort_draws (e : Err) (info : Word) (s : State) :
    (abort e info s).draws = s.draws + 1 := rfl

/-! ### `zeroWorking` -/

@[simp] theorem zeroWorking_ws (s : State) :
    (zeroWorking s).ws = Vector.replicate 16 0 := rfl
@[simp] theorem zeroWorking_is (s : State) :
    (zeroWorking s).is = Vector.replicate 16 0 := rfl
@[simp] theorem zeroWorking_ksb (s : State) :
    (zeroWorking s).ksb = Vector.replicate 64 0 := rfl
@[simp] theorem zeroWorking_key (s : State) :
    (zeroWorking s).key = s.key := rfl
@[simp] theorem zeroWorking_nonce (s : State) :
    (zeroWorking s).nonce = s.nonce := rfl
@[simp] theorem zeroWorking_ctr (s : State) :
    (zeroWorking s).ctr = s.ctr := rfl
@[simp] theorem zeroWorking_base (s : State) :
    (zeroWorking s).base = s.base := rfl
@[simp] theorem zeroWorking_len (s : State) :
    (zeroWorking s).len = s.len := rfl
@[simp] theorem zeroWorking_busy (s : State) :
    (zeroWorking s).busy = s.busy := rfl
@[simp] theorem zeroWorking_done (s : State) :
    (zeroWorking s).done = s.done := rfl
@[simp] theorem zeroWorking_err (s : State) :
    (zeroWorking s).err = s.err := rfl
@[simp] theorem zeroWorking_errCode (s : State) :
    (zeroWorking s).errCode = s.errCode := rfl
@[simp] theorem zeroWorking_errInfo (s : State) :
    (zeroWorking s).errInfo = s.errInfo := rfl
@[simp] theorem zeroWorking_cur (s : State) :
    (zeroWorking s).cur = s.cur := rfl
@[simp] theorem zeroWorking_mem (s : State) :
    (zeroWorking s).mem = s.mem := rfl
@[simp] theorem zeroWorking_plat (s : State) :
    (zeroWorking s).plat = s.plat := rfl
@[simp] theorem zeroWorking_host (s : State) :
    (zeroWorking s).host = s.host := rfl
@[simp] theorem zeroWorking_sched (s : State) :
    (zeroWorking s).sched = s.sched := rfl
@[simp] theorem zeroWorking_rdata (s : State) :
    (zeroWorking s).rdata = s.rdata := rfl
@[simp] theorem zeroWorking_mdata (s : State) :
    (zeroWorking s).mdata = s.mdata := rfl
@[simp] theorem zeroWorking_owned (s : State) :
    (zeroWorking s).owned = s.owned := rfl
@[simp] theorem zeroWorking_draws (s : State) :
    (zeroWorking s).draws = s.draws := rfl

/-! ### `resetRegisters` -/

@[simp] theorem resetRegisters_ws (s : State) :
    (resetRegisters s).ws = Vector.replicate 16 0 := rfl
@[simp] theorem resetRegisters_is (s : State) :
    (resetRegisters s).is = Vector.replicate 16 0 := rfl
@[simp] theorem resetRegisters_ksb (s : State) :
    (resetRegisters s).ksb = Vector.replicate 64 0 := rfl
@[simp] theorem resetRegisters_key (s : State) :
    (resetRegisters s).key = Vector.replicate 8 0 := rfl
@[simp] theorem resetRegisters_nonce (s : State) :
    (resetRegisters s).nonce = Vector.replicate 3 0 := rfl
@[simp] theorem resetRegisters_ctr (s : State) :
    (resetRegisters s).ctr = 0 := rfl
@[simp] theorem resetRegisters_base (s : State) :
    (resetRegisters s).base = 0 := rfl
@[simp] theorem resetRegisters_len (s : State) :
    (resetRegisters s).len = 0 := rfl
@[simp] theorem resetRegisters_busy (s : State) :
    (resetRegisters s).busy = false := rfl
@[simp] theorem resetRegisters_done (s : State) :
    (resetRegisters s).done = false := rfl
@[simp] theorem resetRegisters_err (s : State) :
    (resetRegisters s).err = false := rfl
@[simp] theorem resetRegisters_errCode (s : State) :
    (resetRegisters s).errCode = 0 := rfl
@[simp] theorem resetRegisters_errInfo (s : State) :
    (resetRegisters s).errInfo = 0 := rfl
@[simp] theorem resetRegisters_cur (s : State) :
    (resetRegisters s).cur = Config.freeWord s.draws := rfl
@[simp] theorem resetRegisters_mem (s : State) :
    (resetRegisters s).mem = s.mem := rfl
@[simp] theorem resetRegisters_plat (s : State) :
    (resetRegisters s).plat = s.plat := rfl
@[simp] theorem resetRegisters_host (s : State) :
    (resetRegisters s).host = s.host := rfl
@[simp] theorem resetRegisters_sched (s : State) :
    (resetRegisters s).sched = s.sched := rfl
@[simp] theorem resetRegisters_rdata (s : State) :
    (resetRegisters s).rdata = s.rdata := rfl
@[simp] theorem resetRegisters_mdata (s : State) :
    (resetRegisters s).mdata = s.mdata := rfl
@[simp] theorem resetRegisters_owned (s : State) :
    (resetRegisters s).owned = s.owned := rfl
@[simp] theorem resetRegisters_draws (s : State) :
    (resetRegisters s).draws = s.draws + 1 := rfl

/-! ### The states in which a given agent is next -/

theorem step_withHostAction (s : State) (act : HostAction) :
    step (s.withHostAction act) = hostAct act s := rfl

theorem step_withEngineTurn (s : State) : step s.withEngineTurn = engineTurn s := rfl

theorem step_withResetTurn (s : State) : step s.withResetTurn = resetEvent s := rfl

end Sys2Proof.Machine
end

