-- ==== Sys2Proof/Laws/Memory.lean ====
section
/-! SUPPORT. The laws of the data space: a read after a write, the canonical form, and that canonical memories with
equal bytes are equal. -/

namespace Sys2Proof.Machine

@[simp] theorem read_nil (a : Nat) : Memory.read [] a = Memory.unlisted := rfl

theorem read_cons (k : Nat) (v : Byte) (t : Memory) (a : Nat) :
    Memory.read ((k, v) :: t) a = if k = a then v else Memory.read t a := rfl

/-- An address below every listed one reads as unlisted. -/
theorem read_of_below {m : Memory} {a : Nat} (h : ∀ c ∈ m, a < c.1) : m.read a = Memory.unlisted := by
  induction m with
  | nil => rfl
  | cons c t ih =>
    have hc : a < c.1 := h c (by simp)
    rw [read_cons, if_neg (by omega)]
    exact ih fun x hx => h x (by simp [hx])

theorem wf_tail {c : Host.Cell} {t : Memory} (h : Memory.wf (c :: t)) : Memory.wf t :=
  ⟨(List.pairwise_cons.mp h.1).2, fun x hx => h.2 x (by simp [hx])⟩

theorem wf_head_below {c : Host.Cell} {t : Memory} (h : Memory.wf (c :: t)) : ∀ x ∈ t, c.1 < x.1 :=
  (List.pairwise_cons.mp h.1).1

theorem read_write_same {m : Memory} (h : m.wf) (a : Nat) (b : Byte) : (m.write a b).read a = b := by
  induction m with
  | nil => by_cases hb : b = Memory.unlisted <;> simp [Memory.write, hb, read_cons]
  | cons c t ih =>
    obtain ⟨k, v⟩ := c
    have hbelow : ∀ x ∈ t, k < x.1 := wf_head_below h
    rcases Nat.lt_trichotomy a k with hlt | heq | hgt
    · by_cases hb : b = Memory.unlisted
      · simp only [Memory.write, if_pos hlt, hb, if_true]
        exact read_of_below (by
          intro x hx
          rcases List.mem_cons.mp hx with rfl | hx
          · exact hlt
          · exact Nat.lt_trans hlt (hbelow x hx))
      · simp [Memory.write, hlt, hb, read_cons]
    · subst heq
      by_cases hb : b = Memory.unlisted
      · simp only [Memory.write, Nat.lt_irrefl, if_false, if_true, hb]
        exact read_of_below hbelow
      · simp [Memory.write, hb, read_cons]
    · simp only [Memory.write, if_neg (by omega : ¬ a < k), if_neg (by omega : ¬ a = k), read_cons,
        if_neg (by omega : ¬ k = a)]
      exact ih (wf_tail h)

theorem read_write_other (m : Memory) {a x : Nat} (b : Byte) (hx : x ≠ a) :
    (m.write a b).read x = m.read x := by
  induction m with
  | nil => by_cases hb : b = Memory.unlisted <;> simp [Memory.write, hb, read_cons, Ne.symm hx]
  | cons c t ih =>
    obtain ⟨k, v⟩ := c
    simp only [Memory.write]
    split
    · split <;> simp [read_cons, Ne.symm hx]
    · split
      · next h =>
        subst h
        split <;> simp [read_cons, Ne.symm hx]
      · simp [read_cons, ih]

/-- Every cell of a written memory was there before or is at the written address. -/
theorem mem_write {m : Memory} {a : Nat} {b : Byte} {c : Host.Cell} (h : c ∈ m.write a b) :
    c ∈ m ∨ c = (a, b) := by
  induction m with
  | nil =>
    simp only [Memory.write] at h
    split at h <;> simp_all
  | cons d t ih =>
    obtain ⟨k, v⟩ := d
    simp only [Memory.write] at h
    split at h
    · split at h <;> simp_all; tauto
    · split at h
      · split at h <;> simp_all; tauto
      · rcases List.mem_cons.mp h with rfl | h
        · simp
        · rcases ih h with h | h <;> simp [h]

/-- Every write keeps the canonical form. -/
theorem write_wf {m : Memory} (h : m.wf) (a : Nat) (b : Byte) : (m.write a b).wf := by
  induction m with
  | nil =>
    by_cases hb : b = Memory.unlisted <;> simp [Memory.write, hb, Memory.wf]
  | cons c t ih =>
    obtain ⟨k, v⟩ := c
    have hbelow : ∀ x ∈ t, k < x.1 := wf_head_below h
    have hv : v ≠ Memory.unlisted := h.2 (k, v) (by simp)
    simp only [Memory.write]
    split
    · next hlt =>
      split
      · exact h
      · next hb =>
        refine ⟨List.pairwise_cons.mpr ⟨?_, h.1⟩, ?_⟩
        · intro x hx
          rcases List.mem_cons.mp hx with rfl | hx
          · exact hlt
          · exact Nat.lt_trans hlt (hbelow x hx)
        · intro x hx
          rcases List.mem_cons.mp hx with rfl | hx
          · exact hb
          · exact h.2 x hx
    · split
      · next heq =>
        subst heq
        split
        · exact wf_tail h
        · next hb =>
          refine ⟨List.pairwise_cons.mpr ⟨hbelow, (wf_tail h).1⟩, ?_⟩
          intro x hx
          rcases List.mem_cons.mp hx with rfl | hx
          · exact hb
          · exact (wf_tail h).2 x hx
      · next hge hne =>
        have ht := ih (wf_tail h)
        refine ⟨List.pairwise_cons.mpr ⟨?_, ht.1⟩, ?_⟩
        · intro x hx
          rcases mem_write hx with hx | rfl
          · exact hbelow x hx
          · show k < a
            omega
        · intro x hx
          rcases List.mem_cons.mp hx with rfl | hx
          · exact hv
          · exact ht.2 x hx

/-- Canonical memories that read the same everywhere are equal. -/
theorem memory_ext {m n : Memory} (hm : m.wf) (hn : n.wf) (h : ∀ a, m.read a = n.read a) : m = n := by
  induction m generalizing n with
  | nil =>
    cases n with
    | nil => rfl
    | cons c t =>
      have := h c.1
      rw [show c = (c.1, c.2) from rfl, read_cons] at this
      exact absurd (by simpa using this.symm) (hn.2 c (by simp))
  | cons c t ih =>
    obtain ⟨k, v⟩ := c
    have hv : v ≠ Memory.unlisted := hm.2 (k, v) (by simp)
    cases n with
    | nil =>
      have := h k
      rw [read_cons, if_pos rfl] at this
      exact absurd (by simpa using this) hv
    | cons d u =>
      obtain ⟨l, w⟩ := d
      have hw : w ≠ Memory.unlisted := hn.2 (l, w) (by simp)
      have hkl : k = l := by
        rcases Nat.lt_trichotomy k l with hlt | heq | hgt
        · have := h k
          rw [read_cons, if_pos rfl, read_cons, if_neg (by omega),
            read_of_below (fun x hx => Nat.lt_trans hlt (wf_head_below hn x hx))] at this
          exact absurd this hv
        · exact heq
        · have := h l
          rw [read_cons, if_neg (by omega), read_cons, if_pos rfl,
            read_of_below (fun x hx => Nat.lt_trans hgt (wf_head_below hm x hx))] at this
          exact absurd this.symm hw
      subst hkl
      have hvw : v = w := by simpa [read_cons] using h k
      subst hvw
      congr 1
      refine ih (wf_tail hm) (wf_tail hn) fun a => ?_
      by_cases ha : k = a
      · subst ha
        rw [read_of_below (wf_head_below hm), read_of_below (wf_head_below hn)]
      · simpa [read_cons, ha] using h a

/-- `writeBytes` keeps the canonical form. -/
theorem writeBytes_wf {m : Memory} (h : m.wf) (a : Nat) (bs : List Byte) : (m.writeBytes a bs).wf := by
  induction bs generalizing m a with
  | nil => exact h
  | cons b bs ih => exact ih (write_wf h a b) (a + 1)

theorem writeBytes_read_other (m : Memory) (a : Nat) (bs : List Byte) {x : Nat}
    (hx : x < a ∨ a + bs.length ≤ x) : (m.writeBytes a bs).read x = m.read x := by
  induction bs generalizing m a with
  | nil => rfl
  | cons b bs ih =>
    simp only [List.length_cons] at hx
    simp only [Memory.writeBytes]
    rw [ih _ _ (by omega), read_write_other _ _ (by omega)]

theorem mem_writeBytes {m : Memory} {a : Nat} {bs : List Byte} {c : Host.Cell}
    (h : c ∈ m.writeBytes a bs) : c ∈ m ∨ (a ≤ c.1 ∧ c.1 < a + bs.length) := by
  induction bs generalizing m a with
  | nil => exact .inl h
  | cons b bs ih =>
    rcases ih h with h | ⟨h1, h2⟩
    · rcases mem_write h with h | rfl
      · exact .inl h
      · exact .inr ⟨Nat.le_refl _, by simp⟩
    · exact .inr ⟨by omega, by simp only [List.length_cons]; omega⟩

theorem readBytes_eq (m : Memory) (a count : Nat) :
    m.readBytes a count = (List.range count).map fun i => m.read (a + i) := by
  induction count generalizing a with
  | zero => rfl
  | succ n ih =>
    rw [Memory.readBytes, ih, List.range_succ_eq_map, List.map_cons, List.map_map]
    refine congrArg₂ _ (by simp) (List.map_congr_left fun i _ => ?_)
    simp [Nat.add_comm, Nat.add_left_comm]

end Sys2Proof.Machine
end

