-- ==== Sys2Proof/Laws/Rounds.lean ====
section
/-! SUPPORT. What a quarter round leaves in each word (R133, R136), and the words and bytes of the feed-forward, the
serialisation and the block function (R156 to R158). -/

namespace Sys2Proof.Machine

theorem indicesDistinct_iff {a b c d : Idx} :
    indicesDistinct a b c d = true ↔ a ≠ b ∧ a ≠ c ∧ a ≠ d ∧ b ≠ c ∧ b ≠ d ∧ c ≠ d := by
  simp [indicesDistinct]

/-- The check of the machine and the well-formedness of the syntax agree. -/
theorem indicesDistinct_eq_wellFormed (a b c d : Idx) :
    indicesDistinct a b c d = (Instr.qr a b c d).wellFormed := by
  by_cases h : indicesDistinct a b c d = true
  · rw [h]
    have := indicesDistinct_iff.mp h
    simp [Instr.wellFormed, this]
  · rw [Bool.not_eq_true] at h
    rw [h, eq_comm, Bool.eq_false_iff]
    intro hw
    rw [Bool.eq_false_iff] at h
    apply h
    simp only [Instr.wellFormed, Bool.and_eq_true, bne_iff_ne] at hw
    exact indicesDistinct_iff.mpr (by tauto)

/-- Word `i` after a vector's word `j` is set. -/
theorem vec_get_set (S : Vec16) (i j : Idx) (x : Word) :
    (S.set j x)[i] = if j = i then x else S[i] := by
  simp only [Fin.getElem_fin, Vector.getElem_set]
  by_cases h : j = i
  · simp [h]
  · simp [h, Fin.val_ne_of_ne h]

/-- Word `i` after a quarter round: the last slot of the four that is `i`, else the old word. -/
theorem qrf_get (S : Vec16) (a b c d i : Idx) :
    (qrf S a b c d)[i] =
      (if d = i then (qr4 S[a] S[b] S[c] S[d]).2.2.2
       else if c = i then (qr4 S[a] S[b] S[c] S[d]).2.2.1
       else if b = i then (qr4 S[a] S[b] S[c] S[d]).2.1
       else if a = i then (qr4 S[a] S[b] S[c] S[d]).1
       else S[i]) := by
  simp only [qrf, vec_get_set]

/-- A quarter round leaves every word but the four named ones (R136). -/
theorem qrf_other {S : Vec16} {a b c d i : Idx} (ha : i ≠ a) (hb : i ≠ b) (hc : i ≠ c) (hd : i ≠ d) :
    (qrf S a b c d)[i] = S[i] := by
  rw [qrf_get, if_neg hd.symm, if_neg hc.symm, if_neg hb.symm, if_neg ha.symm]

/-- The four named words after a quarter round on distinct indices (R133). -/
theorem qrf_named {S : Vec16} {a b c d : Idx} (h : indicesDistinct a b c d = true) :
    (qrf S a b c d)[a] = (qr4 S[a] S[b] S[c] S[d]).1 ∧
    (qrf S a b c d)[b] = (qr4 S[a] S[b] S[c] S[d]).2.1 ∧
    (qrf S a b c d)[c] = (qr4 S[a] S[b] S[c] S[d]).2.2.1 ∧
    (qrf S a b c d)[d] = (qr4 S[a] S[b] S[c] S[d]).2.2.2 := by
  obtain ⟨hab, hac, had, hbc, hbd, hcd⟩ := indicesDistinct_iff.mp h
  refine ⟨?_, ?_, ?_, ?_⟩
  · rw [qrf_get, if_neg had.symm, if_neg hac.symm, if_neg hab.symm, if_pos rfl]
  · rw [qrf_get, if_neg hbd.symm, if_neg hbc.symm, if_pos rfl]
  · rw [qrf_get, if_neg hcd.symm, if_pos rfl]
  · rw [qrf_get, if_pos rfl]

theorem vec_ext {S T : Vec16} (h : ∀ i : Idx, S[i] = T[i]) : S = T := by
  apply Vector.ext
  intro i hi
  exact h ⟨i, hi⟩

theorem feedForward_get (X W : Vec16) (i : Idx) : (feedForward X W)[i] = W[i] + X[i] := by
  simp [feedForward, add32]

theorem serialise_get (Z : Vec16) (n : Nat) (h : n < 64) :
    (serialise Z)[n] = byteOf (Z[n / 4]'(by omega)) (n % 4) := by
  simp [serialise]

theorem doubleRounds_succ (n : Nat) (W : Vec16) :
    doubleRounds (n + 1) W = doubleRounds n (doubleRound W) := rfl

theorem blockBytes_length (X : Vec16) : (blockBytes X).toList.length = 64 := by simp

end Sys2Proof.Machine
end

