-- ==== Sys2Proof/Laws/Stream.lean ====
section
/-! SUPPORT. The keystream in closed form (R173), and what a pass over the buffer does (R175, R179). -/

namespace Sys2Proof.Machine

/-! ### The keystream -/

theorem bumpCounter_assemble (key : Vector Word 8) (c : Word) (nonce : Vector Word 3) :
    bumpCounter (assemble key c nonce) = assemble key (c + 1) nonce := rfl

theorem keystream_length (n : Nat) (X : Vec16) : (keystream n X).length = 64 * n := by
  induction n generalizing X with
  | zero => rfl
  | succ n ih => simp [keystream, ih]; omega

/-- Byte `i` of the keystream depends on the block `i div 64` through the counter only (R173). -/
theorem keystream_get (key : Vector Word 8) (nonce : Vector Word 3) (n : Nat) (c : Word) (i : Nat)
    (h : i < (keystream n (assemble key c nonce)).length) :
    (keystream n (assemble key c nonce))[i] =
      (blockBytes (assemble key (c + BitVec.ofNat 32 (i / 64)) nonce))[i % 64]'(Nat.mod_lt i (by decide)) := by
  induction n generalizing c i with
  | zero => simp [keystream] at h
  | succ n ih =>
    simp only [keystream, bumpCounter_assemble] at h ⊢
    by_cases hi : i < 64
    · rw [List.getElem_append_left (by simpa using hi)]
      simp [Nat.div_eq_of_lt hi, Nat.mod_eq_of_lt hi]
    · obtain ⟨j, rfl⟩ : ∃ j, i = 64 + j := ⟨i - 64, by omega⟩
      rw [List.getElem_append_right (by simp)]
      simp only [Vector.length_toList, Nat.add_sub_cancel_left]
      rw [ih]
      have h1 : (64 + j) / 64 = j / 64 + 1 := by omega
      have h2 : (64 + j) % 64 = j % 64 := by omega
      simp only [h1, h2]
      congr 3
      rw [BitVec.add_assoc]
      congr 1
      rw [Nat.add_comm (j / 64) 1, BitVec.ofNat_add]
      rfl

theorem streamBytes_length (s : State) : (streamBytes s).length = s.len.toNat := by
  simp only [streamBytes, List.length_take, keystream_length, blockCount]
  omega

/-- Byte `i` of what a `STREAM` xors into its buffer. -/
theorem streamBytes_get (s : State) (i : Nat) (h : i < (streamBytes s).length) :
    (streamBytes s)[i] = keystreamByte s i := by
  simp only [streamBytes, List.getElem_take]
  exact keystream_get ..

/-! ### The pass over the buffer -/

/-- One byte of a pass, where the address answers. -/
theorem xorPass_cons_of_accessible {p : Platform} {a : Nat} (h : p.accessible a = true) (m : Memory)
    (k : Byte) (ks : List Byte) :
    xorPass p m a (k :: ks) =
      ⟨(xorPass p (m.write a (xor8 (m.read a) k)) (a + 1) ks).mem,
       .read a :: .write a :: (xorPass p (m.write a (xor8 (m.read a) k)) (a + 1) ks).accesses,
       (xorPass p (m.write a (xor8 (m.read a) k)) (a + 1) ks).failed⟩ := by
  simp [xorPass, memRead, memWrite, h]

/-- One byte of a pass, where the address does not answer: the pass ends, nothing accessed. -/
theorem xorPass_cons_of_not_accessible {p : Platform} {a : Nat} (h : p.accessible a = false) (m : Memory)
    (k : Byte) (ks : List Byte) : xorPass p m a (k :: ks) = ⟨m, [], some a⟩ := by
  simp [xorPass, memRead, h]

/-- A pass over the first `f` bytes, which answer, followed by one that does not, or by nothing: what it is, as
the writes it makes. -/
theorem xorPass_spec {p : Platform} {m : Memory} (hm : m.wf) (a : Nat) (ks : List Byte) (f : Nat)
    (hf : f ≤ ks.length) (hacc : ∀ i, i < f → p.accessible (a + i) = true)
    (hstop : f = ks.length ∨ p.accessible (a + f) = false) :
    (∀ i (h : i < f), (xorPass p m a ks).mem.read (a + i) = xor8 (m.read (a + i)) (ks[i]'(by omega))) ∧
    (xorPass p m a ks).accesses = ((List.range f).flatMap fun i => [.read (a + i), .write (a + i)]) ∧
    (xorPass p m a ks).failed = (if f = ks.length then none else some (a + f)) ∧
    (∀ x, x < a ∨ a + f ≤ x → (xorPass p m a ks).mem.read x = m.read x) := by
  induction ks generalizing m a f with
  | nil =>
    obtain rfl : f = 0 := by simpa using hf
    simp [xorPass]
  | cons k ks ih =>
    cases f with
    | zero =>
      have h0 : p.accessible a = false := by simpa using hstop
      simp [xorPass_cons_of_not_accessible h0]
    | succ f =>
      have h0 : p.accessible a = true := by simpa using hacc 0 (by omega)
      rw [xorPass_cons_of_accessible h0]
      obtain ⟨h1, h2, h3, h4⟩ := ih (m := m.write a (xor8 (m.read a) k)) (write_wf hm _ _) (a + 1) f
        (by simpa using hf)
        (fun i hi => by simpa [Nat.add_assoc, Nat.add_comm 1] using hacc (i + 1) (by omega))
        (by simpa [Nat.add_assoc, Nat.add_comm 1] using hstop)
      refine ⟨?_, ?_, ?_, ?_⟩
      · intro i hi
        cases i with
        | zero =>
          show Memory.read _ a = _
          rw [h4 a (by omega), read_write_same hm]
          rfl
        | succ i =>
          have := h1 i (by omega)
          rw [show a + (i + 1) = a + 1 + i by omega, this, read_write_other _ _ (by omega)]
          rfl
      · rw [h2, List.range_succ_eq_map, List.flatMap_cons, List.flatMap_map]
        simp [Nat.add_assoc, Nat.add_comm 1]
      · rw [h3]
        simp [Nat.add_assoc, Nat.add_comm 1]
      · intro x hx
        rw [h4 x (by omega), read_write_other _ _ (by omega)]

/-- A pass reads and writes nothing outside the bytes it is given. -/
theorem xorPass_read_other (p : Platform) (m : Memory) (a : Nat) (ks : List Byte) {x : Nat}
    (hx : x < a ∨ a + ks.length ≤ x) : (xorPass p m a ks).mem.read x = m.read x := by
  induction ks generalizing m a with
  | nil => rfl
  | cons k ks ih =>
    simp only [List.length_cons] at hx
    cases h : p.accessible a with
    | false => rw [xorPass_cons_of_not_accessible h]
    | true =>
      rw [xorPass_cons_of_accessible h]
      show Memory.read (xorPass p _ (a + 1) ks).mem x = _
      rw [ih _ _ (by omega), read_write_other _ _ (by omega)]

/-- A pass keeps the canonical form. -/
theorem xorPass_wf {p : Platform} {m : Memory} (hm : m.wf) (a : Nat) (ks : List Byte) :
    (xorPass p m a ks).mem.wf := by
  induction ks generalizing m a with
  | nil => exact hm
  | cons k ks ih =>
    cases h : p.accessible a with
    | false => rw [xorPass_cons_of_not_accessible h]; exact hm
    | true => rw [xorPass_cons_of_accessible h]; exact ih (write_wf hm _ _) _

/-- A pass adds no cell outside the bytes it is given. -/
theorem mem_xorPass {p : Platform} {m : Memory} {a : Nat} {ks : List Byte} {c : Host.Cell}
    (h : c ∈ (xorPass p m a ks).mem) : c ∈ m ∨ (a ≤ c.1 ∧ c.1 < a + ks.length) := by
  induction ks generalizing m a with
  | nil => exact .inl h
  | cons k ks ih =>
    cases hacc : p.accessible a with
    | false => rw [xorPass_cons_of_not_accessible hacc] at h; exact .inl h
    | true =>
      rw [xorPass_cons_of_accessible hacc] at h
      rcases ih h with h | ⟨h1, h2⟩
      · rcases mem_write h with h | rfl
        · exact .inl h
        · exact .inr ⟨Nat.le_refl _, by simp⟩
      · exact .inr ⟨by omega, by simp only [List.length_cons]; omega⟩

/-! ### The buffer an abandoned `STREAM` leaves -/

theorem mixPass_wf {m : Memory} (hm : m.wf) (took : Nat → Bool) (i a : Nat) (ks : List Byte) :
    (mixPass took i a ks m).wf := by
  induction ks generalizing m i a with
  | nil => exact hm
  | cons k ks ih =>
    simp only [mixPass]
    apply ih
    split
    · exact write_wf hm _ _
    · exact hm

theorem mem_mixPass {m : Memory} {took : Nat → Bool} {i a : Nat} {ks : List Byte} {c : Host.Cell}
    (h : c ∈ mixPass took i a ks m) : c ∈ m ∨ (a ≤ c.1 ∧ c.1 < a + ks.length) := by
  induction ks generalizing m i a with
  | nil => exact .inl h
  | cons k ks ih =>
    simp only [mixPass] at h
    rcases ih h with h | ⟨h1, h2⟩
    · split at h
      · rcases mem_write h with h | rfl
        · exact .inl h
        · exact .inr ⟨Nat.le_refl _, by simp⟩
      · exact .inl h
    · exact .inr ⟨by omega, by simp only [List.length_cons]; omega⟩

theorem mixPass_read_other (m : Memory) (took : Nat → Bool) (i a : Nat) (ks : List Byte) {x : Nat}
    (hx : x < a ∨ a + ks.length ≤ x) : (mixPass took i a ks m).read x = m.read x := by
  induction ks generalizing m i a with
  | nil => rfl
  | cons k ks ih =>
    simp only [List.length_cons] at hx
    simp only [mixPass]
    rw [ih _ _ _ (by omega)]
    split
    · exact read_write_other _ _ (by omega)
    · rfl

/-- Each byte is transformed where `took` says so, else old (R231). -/
theorem mixPass_read {m : Memory} (hm : m.wf) (took : Nat → Bool) (i a : Nat) (ks : List Byte) (j : Nat)
    (hj : j < ks.length) :
    (mixPass took i a ks m).read (a + j) =
      if took (i + j) then xor8 (m.read (a + j)) ks[j] else m.read (a + j) := by
  induction ks generalizing m i a j with
  | nil => simp at hj
  | cons k ks ih =>
    simp only [mixPass]
    cases j with
    | zero =>
      rw [mixPass_read_other _ _ _ _ _ (by omega)]
      simp only [Nat.add_zero, List.getElem_cons_zero]
      split
      · exact read_write_same hm _ _
      · rfl
    | succ j =>
      rw [show a + (j + 1) = a + 1 + j by omega, show i + (j + 1) = i + 1 + j by omega,
        ih (by split; exacts [write_wf hm _ _, hm]) _ _ _ (by simpa using hj)]
      simp only [List.getElem_cons_succ]
      have : Memory.read (if took i then m.write a (xor8 (m.read a) k) else m) (a + 1 + j) =
          m.read (a + 1 + j) := by
        split
        · exact read_write_other _ _ (by omega)
        · rfl
      rw [this]

end Sys2Proof.Machine
end

