-- ==== Sys2Proof/Laws/Step.lean ====
section
/-! SUPPORT. What a step can do, said once: one inversion lemma for each meaning, for the host's actions, for reset and
for the step itself. -/

namespace Sys2Proof.Machine

/-! ### The commands -/

theorem execQr_cases {a b c d : Idx} {s t : State} (h : execQr a b c d s = .next t) :
    (indicesDistinct a b c d = true ∧ t = complete { s with ws := qrf s.ws a b c d }) ∨
    (indicesDistinct a b c d = false ∧ t = abort .badIndex (encode (.qr a b c d)) s) := by
  unfold execQr qrError at h
  cases hd : indicesDistinct a b c d <;> simp [hd] at h <;> simp [h.symm]

theorem execBlock_cases {s t : State} (h : execBlock s = .next t) :
    t = complete { s with ws := blockWords s.is, ksb := serialise (blockWords s.is) } := by
  simpa [execBlock] using h.symm

theorem bufferInRange_iff {s : State} :
    bufferInRange s = true ↔ s.base.toNat + s.len.toNat ≤ 2 ^ s.plat.aw := by
  simp [bufferInRange]

theorem bufferRefusal_eq_none {p : Platform} {r : Region} :
    bufferRefusal p r = none ↔ p.touchesRegisters r = false ∧ p.touchesDevice r = false := by
  unfold bufferRefusal
  cases p.touchesRegisters r <;> cases p.touchesDevice r <;> simp

/-- A `STREAM` that goes on was out of range, or ran its pass: to the end, or to the first byte that does not
answer. -/
theorem execStream_cases {s t : State} (h : execStream s = .next t) :
    (2 ^ s.plat.aw < s.base.toNat + s.len.toNat ∧ t = abort .range (encode .stream) s) ∨
    (s.base.toNat + s.len.toNat ≤ 2 ^ s.plat.aw ∧ bufferRefusal s.plat (buffer s) = none ∧
      (((streamPass s).failed = none ∧ t = complete (zeroWorking { s with mem := (streamPass s).mem })) ∨
       (∃ a, (streamPass s).failed = some a ∧
          t = abort .bus (BitVec.ofNat 32 a) (zeroWorking { s with mem := (streamPass s).mem })))) := by
  unfold execStream streamError at h
  cases hr : bufferInRange s
  · have : ¬ s.base.toNat + s.len.toNat ≤ 2 ^ s.plat.aw := by
      rw [← bufferInRange_iff, hr]; simp
    simp [hr] at h
    exact .inl ⟨by omega, h.symm⟩
  · refine .inr ⟨bufferInRange_iff.mp hr, ?_⟩
    simp only [hr, if_true] at h
    cases hb : bufferRefusal s.plat (buffer s) with
    | some r => simp [hb] at h
    | none =>
      refine ⟨rfl, ?_⟩
      simp only [hb] at h
      cases hf : (streamPass s).failed with
      | none => simp [hf] at h; exact .inl ⟨rfl, h.symm⟩
      | some a => simp [hf] at h; exact .inr ⟨a, rfl, h.symm⟩

/-- A `STREAM` in range over ordinary memory, run. -/
theorem execStream_of_in_range {s : State} (hr : s.base.toNat + s.len.toNat ≤ 2 ^ s.plat.aw)
    (hb : bufferRefusal s.plat (buffer s) = none) :
    execStream s =
      match (streamPass s).failed with
      | some a => .next (abort .bus (BitVec.ofNat 32 a) (zeroWorking { s with mem := (streamPass s).mem }))
      | none => .next (complete (zeroWorking { s with mem := (streamPass s).mem })) := by
  cases hf : (streamPass s).failed <;> simp [execStream, streamError, bufferInRange_iff.mpr hr, hb, hf]

/-! ### The host -/

/-- A command issue does one of four things (R113). -/
theorem issue_cases (w : Word) (s : State) :
    ((s.busy = true ∨ s.err = true) ∧ issue w s = s) ∨
    (s.busy = false ∧ s.err = false ∧
      ((∃ e, issue w s = raise e w { s with done := false }) ∨
       (∃ i, decode w = .command i ∧ admission i s = none ∧
          issue w s = accept w { s with done := false }))) := by
  unfold issue
  by_cases hb : s.busy = true
  · exact .inl ⟨.inl hb, if_pos hb⟩
  · by_cases he : s.err = true
    · exact .inl ⟨.inr he, by rw [if_neg hb, if_pos he]⟩
    · refine .inr ⟨by simpa using hb, by simpa using he, ?_⟩
      rw [if_neg hb, if_neg he]
      cases hd : decode w with
      | illegal why => exact .inl ⟨_, rfl⟩
      | command i =>
        cases ha : admission i { s with done := false } with
        | some e => exact .inl ⟨e, by simp only [ha]⟩
        | none =>
          refine .inr ⟨i, rfl, ?_, by simp only [ha]⟩
          cases i <;> exact ha

/-- What the host's action was, if it goes on, and what it did. -/
theorem hostAct_cases {act : HostAction} {s t : State} (h : hostAct act s = .next t) :
    (∃ off v, act = .wr off 32 v ∧ off.toNat % 4 = 0 ∧ t = writeReg (regAt off) v s) ∨
    (∃ off, act = .rd off 32 ∧ off.toNat % 4 = 0 ∧ t = readReg (regAt off) s) ∨
    (∃ addr bytes, act = .memw addr bytes ∧ hostMayTouch ⟨addr, bytes.length⟩ s = none ∧
      t = { s with mem := s.mem.writeBytes addr bytes }) ∨
    (∃ addr count, act = .memr addr count ∧ hostMayTouch ⟨addr, count⟩ s = none ∧
      t = { s with mdata := s.mem.readBytes addr count }) ∨
    (act = .wait ∧ ((s.busy = true ∧ t = { readReg .status s with host := .wait :: s.host }) ∨
      (s.busy = false ∧ t = readReg .status s))) := by
  cases act with
  | wr off width v =>
    simp only [hostAct] at h
    split at h
    · next hd =>
      simp only [definedAccess, decide_eq_true_eq] at hd
      obtain ⟨rfl, ha⟩ := hd
      cases h
      exact .inl ⟨off, v, rfl, ha, rfl⟩
    · cases h
  | rd off width =>
    simp only [hostAct] at h
    split at h
    · next hd =>
      simp only [definedAccess, decide_eq_true_eq] at hd
      obtain ⟨rfl, ha⟩ := hd
      cases h
      exact .inr (.inl ⟨off, rfl, ha, rfl⟩)
    · cases h
  | memw addr bytes =>
    simp only [hostAct, hostMemAccess] at h
    split at h
    · cases h
    · cases h
    · next hn => cases h; exact .inr (.inr (.inl ⟨addr, bytes, rfl, hn, rfl⟩))
  | memr addr count =>
    simp only [hostAct, hostMemAccess] at h
    split at h
    · cases h
    · cases h
    · next hn => cases h; exact .inr (.inr (.inr (.inl ⟨addr, count, rfl, hn, rfl⟩)))
  | wait =>
    simp only [hostAct] at h
    refine .inr (.inr (.inr (.inr ⟨rfl, ?_⟩)))
    split at h
    · next hb => cases h; exact .inl ⟨hb, rfl⟩
    · next hb => cases h; exact .inr ⟨by simpa using hb, rfl⟩

/-- A region the host may touch is empty or inside the data space, and no buffer of the engine's. -/
theorem hostMayTouch_none {r : Region} {s : State} (h : hostMayTouch r s = none) :
    (r.size = 0 ∨ r.base + r.size ≤ 2 ^ s.plat.aw) ∧ (∀ o ∈ s.owned, o.meets r = false) ∧
    bufferRefusal s.plat r = none := by
  unfold hostMayTouch at h
  split at h
  · cases h
  · next h1 =>
    split at h
    · cases h
    · next h2 =>
      refine ⟨by omega, ?_, by simpa using h⟩
      intro o ho
      by_contra hm
      exact h2 (List.any_eq_true.mpr ⟨o, ho, by simpa using hm⟩)

/-! ### Reading registers -/

/-- A register read changes the returned word, the count of draws and, for `STATUS`, the host's record of the
buffers, and nothing else. -/
theorem readReg_cases (r : Reg) (s : State) :
    (s.busy = true ∧ r.working = true ∧
      readReg r s = { s with rdata := Config.freeWord s.draws, draws := s.draws + 1 }) ∨
    ((s.busy = false ∨ r.working = false) ∧ (s.busy = true ∨ r ≠ .status) ∧
      readReg r s = { s with rdata := regValue r s }) ∨
    (s.busy = false ∧ r = .status ∧ readReg r s = { s with owned := [], rdata := statusWord s }) := by
  unfold readReg observeStatus
  cases hb : s.busy <;> cases r <;> simp [Reg.working, regValue, hb]

/-! ### Reset -/

theorem resetEvent_cases {s t : State} (h : resetEvent s = .next t) :
    (streaming s = false ∧ t = resetRegisters s) ∨
    (streaming s = true ∧ bufferRefusal s.plat (buffer s) = none ∧ t = resetRegisters
      { s with mem := mixPass (Config.freeTook s.draws) 0 s.base.toNat (streamBytes s) s.mem }) := by
  unfold resetEvent at h
  cases hs : streaming s
  · simp [hs] at h; exact .inl ⟨rfl, h.symm⟩
  · simp only [hs, if_true] at h
    split at h
    · cases h
    · next hn => cases h; exact .inr ⟨rfl, hn, rfl⟩

theorem streaming_iff {s : State} :
    streaming s = true ↔ s.busy = true ∧ decode s.cur = .command .stream := by
  simp [streaming]

/-! ### The step -/

theorem engineTurn_cases {s t : State} (h : engineTurn s = .next t) :
    (s.busy = false ∧ t = s) ∨
    (s.busy = true ∧ ((∃ i, decode s.cur = .command i ∧ exec i s = .next t) ∨
      (∃ why, decode s.cur = .illegal why ∧ t = abort .illegalCmd s.cur s))) := by
  unfold engineTurn at h
  cases hb : s.busy
  · simp [hb] at h; exact .inl ⟨rfl, h.symm⟩
  · simp only [hb, if_true] at h
    refine .inr ⟨rfl, ?_⟩
    cases hd : decode s.cur with
    | command i => rw [hd] at h; exact .inl ⟨i, rfl, h⟩
    | illegal why => rw [hd] at h; cases h; exact .inr ⟨why, rfl, rfl⟩

/-- Who moved at a step, and on what state: the schedule's turn is taken off, and the host's action is taken off its
script. `u` is the state the mover acts on. -/
theorem step_cases {s t : State} (h : step s = .next t) :
    ∃ u, (∀ rest, s.sched = .engine :: rest ∨ s.sched = .host :: rest ∨ s.sched = .reset :: rest →
        u.sched = rest) ∧
      ((u = { s with sched := u.sched } ∧ t = u ∧ s.host = [] ∧ ∀ rest, s.sched ≠ .engine :: rest) ∨
       (∃ act, s.host = act :: u.host ∧ u = { s with sched := u.sched, host := u.host } ∧
          hostMoves s ∧ hostAct act u = .next t) ∨
       (u = { s with sched := u.sched } ∧ engineTurn u = .next t ∧
          (∀ rest, s.sched ≠ .host :: rest ∧ s.sched ≠ .reset :: rest)) ∨
       (u = { s with sched := u.sched } ∧ resetEvent u = .next t ∧ ∃ rest, s.sched = .reset :: rest)) := by
  have host_case : ∀ u : State, u = { s with sched := u.sched } → hostTurn u = .next t →
      (t = u ∧ s.host = []) ∨
      (∃ act rest, s.host = act :: rest ∧ hostAct act { u with host := rest } = .next t) := by
    intro u hu h
    unfold hostTurn at h
    have hh : u.host = s.host := by rw [hu]
    cases hl : s.host with
    | nil => rw [hh, hl] at h; cases h; exact .inl ⟨rfl, rfl⟩
    | cons act rest => rw [hh, hl] at h; exact .inr ⟨act, rest, rfl, h⟩
  unfold step at h
  split at h
  · next rest hs =>
    rcases host_case _ rfl h with ⟨h1, h2⟩ | ⟨act, hrest, h1, h2⟩
    · exact ⟨_, by simp [hs], .inl ⟨rfl, h1, h2, by simp [hs]⟩⟩
    · exact ⟨_, by simp [hs], .inr (.inl ⟨act, by simpa using h1, rfl, .inl ⟨rest, hs⟩, h2⟩)⟩
  · next rest hs => exact ⟨_, by simp [hs], .inr (.inr (.inl ⟨rfl, h, by simp [hs]⟩))⟩
  · next rest hs => exact ⟨_, by simp [hs], .inr (.inr (.inr ⟨rfl, h, by simp [hs]⟩))⟩
  · next hs =>
    split at h
    · exact ⟨s, by simp [hs], .inr (.inr (.inl ⟨rfl, h, by simp [hs]⟩))⟩
    · next hb =>
      rcases host_case s rfl h with ⟨h1, h2⟩ | ⟨act, hrest, h1, h2⟩
      · exact ⟨s, by simp [hs], .inl ⟨rfl, h1, h2, by simp [hs]⟩⟩
      · exact ⟨{ s with host := hrest }, by simp [hs],
          .inr (.inl ⟨act, by simpa using h1, rfl, .inr ⟨hs, by simpa using hb⟩, h2⟩)⟩

/-- A step of the host's is a turn of the host, the schedule's turn taken off if there is one. -/
theorem step_of_hostMoves {s : State} (h : hostMoves s) : step s = hostTurn { s with sched := s.sched.tail } := by
  rcases h with ⟨rest, hs⟩ | ⟨hs, hb⟩
  · simp [step, hs]
  · obtain ⟨⟩ := s
    simp_all [step]

end Sys2Proof.Machine
end

