-- ==== Sys2Proof/Laws/Host.lean ====
section
/-! SUPPORT. What the host's operations leave alone, and how regions of addresses shrink. -/

namespace Sys2Proof

theorem Region.meets_mono {r x y : Region} (h : r.meets x = false)
    (hy : y.size ≠ 0 → x.base ≤ y.base ∧ y.base + y.size ≤ x.base + x.size) : r.meets y = false := by
  simp only [Region.meets, decide_eq_false_iff_not] at *
  omega

theorem Platform.touchesDevice_mono {p : Platform} {x y : Region} (h : p.touchesDevice x = false)
    (hy : y.size ≠ 0 → x.base ≤ y.base ∧ y.base + y.size ≤ x.base + x.size) :
    p.touchesDevice y = false := by
  simp only [Platform.touchesDevice, List.any_eq_false, Bool.not_eq_true] at *
  exact fun r hr => Region.meets_mono (h r hr) hy

theorem Platform.touchesRegisters_mono {p : Platform} {x y : Region} (h : p.touchesRegisters x = false)
    (hy : y.size ≠ 0 → x.base ≤ y.base ∧ y.base + y.size ≤ x.base + x.size) :
    p.touchesRegisters y = false := by
  simp only [Platform.touchesRegisters, Bool.and_eq_false_iff] at *
  exact h.imp id fun h => Region.meets_mono h hy

namespace Machine

theorem writeBytes_read {m : Memory} (hm : m.wf) (a : Nat) (bs : List Byte) (i : Nat) (h : i < bs.length) :
    (m.writeBytes a bs).read (a + i) = bs[i] := by
  induction bs generalizing m a i with
  | nil => simp at h
  | cons b bs ih =>
    simp only [Memory.writeBytes]
    cases i with
    | zero => rw [writeBytes_read_other _ _ _ (by omega)]; exact read_write_same hm _ _
    | succ i => rw [show a + (i + 1) = a + 1 + i by omega]; exact ih (write_wf hm _ _) _ _ (by simpa using h)

theorem issue_frame (w : Word) (s : State) : (issue w s).plat = s.plat ∧ (issue w s).mem = s.mem := by
  rcases issue_cases w s with ⟨_, h⟩ | ⟨_, _, ⟨e, h⟩ | ⟨i, _, _, h⟩⟩ <;> rw [h] <;> simp

theorem writeSlot_frame (r : Reg) (v : Word) (s : State) :
    (writeSlot r v s).plat = s.plat ∧ (writeSlot r v s).mem = s.mem := by
  cases r <;> simp [writeSlot]
  unfold writeStatus; split <;> split <;> simp

theorem writeReg_frame (r : Reg) (v : Word) (s : State) :
    (writeReg r v s).plat = s.plat ∧ (writeReg r v s).mem = s.mem := by
  unfold writeReg
  split
  · simp
  · split
    · exact issue_frame ..
    · exact writeSlot_frame ..

theorem readReg_frame (r : Reg) (s : State) :
    (readReg r s).plat = s.plat ∧ (readReg r s).mem = s.mem := by
  rcases readReg_cases r s with ⟨_, _, h⟩ | ⟨_, _, h⟩ | ⟨_, _, h⟩ <;> rw [h] <;> simp

/-- An aligned 32-bit register write of the host. -/
theorem step_write (s : State) {off : BitVec 9} (v : Word) (h : off.toNat % 4 = 0) :
    step (s.withHostAction (.wr off 32 v)) = .next (writeReg (regAt off) v s) := by
  rw [step_withHostAction]; simp [hostAct, definedAccess, h]

/-- An aligned 32-bit register read of the host. -/
theorem step_read (s : State) {off : BitVec 9} (h : off.toNat % 4 = 0) :
    step (s.withHostAction (.rd off 32)) = .next (readReg (regAt off) s) := by
  rw [step_withHostAction]; simp [hostAct, definedAccess, h]

end Machine

end Sys2Proof
end

