-- ==== Sys2Proof/Laws/PerInstr.lean ====
section
/-! SUPPORT. A law stated for each command: its word selects its row of the opcode map (R93). -/

namespace Sys2Proof.Laws.EncodingRow

/-- `w AND mask = match` for the word of the command. -/
def Statement (i : Instr) : Prop := encode i &&& i.rowMask = i.rowMatch

theorem qr (a b c d : Idx) : Statement (.qr a b c d) := by
  have hw : (encode (.qr a b c d)).toNat / 2 ^ 16 = 0x0100 := by
    have := a.isLt; have := b.isLt; have := c.isLt; have := d.isLt
    simp only [encode, BitVec.toNat_ofNat]
    omega
  have hm : ∀ w : Word, w &&& 0xFFFF0000#32 = (w >>> 16) <<< 16 := by
    intro w
    apply BitVec.eq_of_getLsbD_eq
    intro i hi
    by_cases h : i < 16
    · have : (0xFFFF0000#32).getLsbD i = false := by
        have key : ∀ k : Fin 16, (0xFFFF0000#32).getLsbD k.val = false := by decide
        exact key ⟨i, h⟩
      simp [h, this]
    · have : (0xFFFF0000#32).getLsbD i = true := by
        have key : ∀ k : Fin 16, (0xFFFF0000#32).getLsbD (16 + k.val) = true := by decide
        have := key ⟨i - 16, by omega⟩
        rwa [show 16 + (i - 16) = i by omega] at this
      rw [BitVec.getLsbD_and, this, BitVec.getLsbD_shiftLeft, BitVec.getLsbD_ushiftRight]
      simp [h, hi, show 16 + (i - 16) = i by omega]
  have hx : encode (.qr a b c d) >>> 16 = 0x0100#32 := by
    apply BitVec.eq_of_toNat_eq
    rw [BitVec.toNat_ushiftRight, Nat.shiftRight_eq_div_pow, hw]; rfl
  unfold Statement
  show encode (.qr a b c d) &&& 0xFFFF0000#32 = 0x01000000#32
  rw [hm, hx]; decide

theorem block : Statement .block := by unfold Statement; decide

theorem stream : Statement .stream := by unfold Statement; decide

end Sys2Proof.Laws.EncodingRow
end

