-- ==== Sys2Proof/Machine/Script.lean ====
section
/-! DEFINITION. The host-script notation of R97 and the pseudo-commands of R98, as lists of host actions. -/

namespace Sys2Proof.Machine.Script

/-- `WR reg, v`: a 32-bit write at `REGBASE + offset(reg)` (R97). -/
def wr (r : Reg) (v : Word) : HostAction := .wr r.offset 32 v

/-- `RD reg` (R97). -/
def rd (r : Reg) : HostAction := .rd r.offset 32

/-- A command of the script issues its word (R97). -/
def command (i : Instr) : HostAction := wr .cmd (encode i)

/-- `CLRDONE` (R98). -/
def clrDone : List HostAction := [wr .status 0x00000002]

/-- `CLRERR` (R98). -/
def clrErr : List HostAction := [wr .status 0x00000004]

/-- `QR` on each quadruple in turn, with a `WAIT` after each. -/
def qrs (qs : List Quad) : List HostAction :=
  qs.flatMap fun q => [command (.qr q.1 q.2.1 q.2.2.1 q.2.2.2), .wait]

/-- `CROUND` (R98). -/
def cround : List HostAction := qrs columnQuads

/-- `DROUND` (R98). -/
def dround : List HostAction := qrs diagonalQuads

/-- `DBLROUND` (R98). -/
def dblround : List HostAction := cround ++ dround

/-- `LDKEY k0..k7` (R98). -/
def ldKey (k : Vector Word 8) : List HostAction := (List.finRange 8).map fun j => wr (.key j) k[j]

/-- `LDNONCE v0 v1 v2` (R98). -/
def ldNonce (v : Vector Word 3) : List HostAction := (List.finRange 3).map fun j => wr (.nonce j) v[j]

/-- `LDIS x0..x15` (R98). -/
def ldIs (x : Vec16) : List HostAction := (List.finRange 16).map fun i => wr (.is i) x[i]

/-- `LDWS x0..x15` (R98). -/
def ldWs (x : Vec16) : List HostAction := (List.finRange 16).map fun i => wr (.ws i) x[i]

/-- `ENCRYPT base, len, ctr` (R98): with `KEY` and `NONCE` loaded, the whole of `encrypt_or_decrypt`. -/
def encrypt (base len ctr : Word) : List HostAction :=
  [wr .base base, wr .len len, wr .ctr ctr, command .stream, .wait]

end Sys2Proof.Machine.Script
end

