-- ==== Sys2Proof/Tests/Slice0.lean ====
section
/-! SUPPORT. The model's own tests and witnesses. Expected values stand in spec/95_test_vectors.md (S, V and P
sections) or in the tables the comment of the test names. -/

set_option maxRecDepth 20000

namespace Sys2Proof.Tests

open Sys2Proof.Machine

/-! ### Small states and the result of a step -/

/-- Whether an outcome is a next state. -/
def runs : Host.Outcome State Fault Refusal → Bool
  | .next _ => true
  | _ => false

/-- The next state of an outcome that is one. -/
def nextOf : Host.Outcome State Fault Refusal → State
  | .next t => t
  | _ => State.reset

theorem exists_of_runs {o : Host.Outcome State Fault Refusal} (h : runs o = true) : ∃ t, o = .next t := by
  cases o with
  | next t => exact ⟨t, rfl⟩
  | fault f => cases h
  | refused r => cases h

/-- `KEY` of S2. -/
def s2Key : Vector Word 8 :=
  #v[0x03020100, 0x07060504, 0x0b0a0908, 0x0f0e0d0c, 0x13121110, 0x17161514, 0x1b1a1918, 0x1f1e1d1c]

/-- `NONCE` of S2. -/
def s2Nonce : Vector Word 3 := #v[0x09000000, 0x4a000000, 0x00000000]

/-- The State of S1. -/
def s1 : Vec16 :=
  #v[0x879531e0, 0xc5ecf37d, 0x516461b1, 0xc9a62f8a, 0x44c20ef3, 0x3390af7f, 0xd9fc690b, 0x2a5f714c,
     0x53372767, 0xb00a5631, 0x974c541a, 0x359e9963, 0x5c971061, 0x3d631689, 0x2098d9d6, 0x91dbd320]

/-- The operands of S2 with the buffer `ff 00 a5` of V9 at `0x1000`. -/
def unitS2 : State :=
  { State.reset with
    key := s2Key, nonce := s2Nonce, ctr := 1, base := 0x1000, len := 3
    mem := [(0x1000, 0xff), (0x1002, 0xa5)] }

/-- `unitS2` with an address that does not answer. -/
def unitBlocked (a : Nat) : State :=
  { unitS2 with plat := { Platform.standard with blocked := [⟨a, 1⟩] } }

/-- A state with a command accepted. -/
def accepted (i : Instr) (s : State) : State := accept (encode i) s

/-- A state in error. -/
def inError : State := raise .badIndex 0x01002788 State.reset

/-! ### Decoding (R93, R98, V11) -/

theorem test_decode_columns :
    decode 0b00000001_00000000_0000_0100_1000_1100#32 = .command (.qr 0 4 8 12) ∧
    decode 0x0100159D#32 = .command (.qr 1 5 9 13) ∧ decode 0x010026AE#32 = .command (.qr 2 6 10 14) ∧
    decode 0x010037BF#32 = .command (.qr 3 7 11 15) := by decide

theorem test_decode_diagonals :
    decode 0x010005AF#32 = .command (.qr 0 5 10 15) ∧ decode 0x010016BC#32 = .command (.qr 1 6 11 12) ∧
    decode 0b00000001_00000000_0010_0111_1000_1101#32 = .command (.qr 2 7 8 13) ∧
    decode 0x0100349E#32 = .command (.qr 3 4 9 14) := by decide

theorem test_decode_block : decode 0b00000010_00000000_00000000_00000000#32 = .command .block := by decide

theorem test_decode_stream : decode 0b00000011_00000000_00000000_00000000#32 = .command .stream := by decide

theorem test_decode_illegal :
    decode 0x00000000#32 = .illegal .opcode ∧ decode 0xffffffff#32 = .illegal .opcode ∧
    decode 0x0000278d#32 = .illegal .opcode ∧ decode 0x0101278d#32 = .illegal .zeroField ∧
    decode 0x02000001#32 = .illegal .zeroField ∧ decode 0x03800000#32 = .illegal .zeroField ∧
    decode 0x04000000#32 = .illegal .opcode := by decide

theorem test_table_word :
    decodeTableWord 32 0x0100278D = some (.qr 2 7 8 13) ∧ decodeTableWord 32 0x02000000 = some .block ∧
    decodeTableWord 32 0x03000000 = some .stream ∧ decodeTableWord 32 0x04000000 = none := by decide

/-- "The three rows are disjoint" (R93). -/
theorem test_rows_disjoint :
    (Instr.qr 0 0 0 0).rowMatch &&& Instr.block.rowMask ≠ Instr.block.rowMatch ∧
    Instr.block.rowMatch &&& (Instr.qr 0 0 0 0).rowMask ≠ (Instr.qr 0 0 0 0).rowMatch ∧
    Instr.stream.rowMatch &&& (Instr.qr 0 0 0 0).rowMask ≠ (Instr.qr 0 0 0 0).rowMatch ∧
    Instr.block.rowMatch ≠ Instr.stream.rowMatch := by decide

/-! ### Well-formedness: one ill-formed term for each of the six comparisons (R137) -/

theorem test_wf_ab : (Instr.qr 5 5 8 13).wellFormed = false := by decide
theorem test_wf_ac : (Instr.qr 5 7 5 13).wellFormed = false := by decide
theorem test_wf_ad : (Instr.qr 5 7 8 5).wellFormed = false := by decide
theorem test_wf_bc : (Instr.qr 2 5 5 13).wellFormed = false := by decide
theorem test_wf_bd : (Instr.qr 2 5 8 5).wellFormed = false := by decide
theorem test_wf_cd : (Instr.qr 2 7 8 8).wellFormed = false := by decide
theorem test_wf_accepts : (Instr.qr 15 14 13 12).wellFormed = true ∧ Instr.block.wellFormed = true ∧
    Instr.stream.wellFormed = true := by decide

/-! ### Arithmetic (V1) -/

theorem test_arithmetic :
    add32 0xfffffff0 0x00000020 = 0x00000010 ∧ add32 0x77777777 0x01234567 = 0x789abcde ∧
    rotl32 0x80000000 7 = 0x00000040 ∧ rotl32 0x80000001 12 = 0x00001800 ∧
    rotl32 0x12345678 16 = 0x56781234 ∧ rotl32 0x12345678 8 = 0x34567812 ∧
    xor32 0x3d631689 0x7bc3d2fd = 0x46a0c474 := by decide

/-- `le32(61707865)` is `e x p a` in ASCII (V1, R24). -/
theorem test_le32 : le32 0x61707865 = [0x65, 0x78, 0x70, 0x61] ∧ le32 0xe4e7f110 = [0x10, 0xf1, 0xe7, 0xe4] ∧
    wordLe 0x10 0xf1 0xe7 0xe4 = 0xe4e7f110 := by decide

/-- V2, and rows 2 and 8 of V3. -/
theorem test_qr4 :
    qr4 0x11111111 0x01020304 0x9b8d6f43 0x01234567 = (0xea2a92f4, 0xcb1cf8ce, 0x4581472e, 0x5881c4bb) ∧
    qr4 0xffffffff 0xffffffff 0xffffffff 0xffffffff = (0xf0000ffd, 0x88790878, 0x0110fdef, 0x010ffdf0) ∧
    qr4 0xffffffff 1 0 0 = (0x00001000, 0x08080000, 0x00100000, 0x00100000) := by decide

/-! ### The commands -/

/-- S1: the source's own vector, all sixteen words. -/
theorem test_qr_source_vector :
    (nextOf (exec (.qr 2 7 8 13) { State.reset with ws := s1 })).ws =
      #v[0x879531e0, 0xc5ecf37d, 0xbdb886dc, 0xc9a62f8a, 0x44c20ef3, 0x3390af7f, 0xd9fc690b, 0xcfacafd2,
         0xe46bea80, 0xb00a5631, 0x974c541a, 0x359e9963, 0x5c971061, 0xccc07c79, 0x2098d9d6, 0x91dbd320] := by
  decide

/-- V4, row 2: the first index is the `a` slot. -/
theorem test_qr_index_order :
    let t := nextOf (exec (.qr 1 0 2 3) { State.reset with
      ws := #v[0x11111111, 0x01020304, 0x9b8d6f43, 0x01234567, 0, 0, 0, 0, 0, 0, 0, 0, 0, 0, 0, 0] })
    t.ws[0] = 0xb334e1e0 ∧ t.ws[1] = 0xfb4943f3 ∧ t.ws[2] = 0x2850461d ∧ t.ws[3] = 0x3b50c3aa := by decide

/-- S2: the first column round and the first double round. -/
theorem test_rounds :
    columnRound (assemble s2Key 1 s2Nonce) =
      #v[0xabbaa25c, 0x1efa51ea, 0x7354fbdf, 0x83d2dc69, 0x3a465196, 0x1c7e64f6, 0xb12fb628, 0xf05b6976,
         0x6b3ca454, 0x08eb14b1, 0xbf8a9ac9, 0xe444df3b, 0xdec62ed2, 0x8862cc77, 0x6e35b345, 0x52a647f1] ∧
    (doubleRound (assemble s2Key 1 s2Nonce))[0] = 0xcd52e917 ∧
    (doubleRound (assemble s2Key 1 s2Nonce))[15] = 0xf173888d := by decide

/-- S2: the sixteen words `BLOCK` leaves in `WS`. -/
theorem test_block_words :
    (nextOf (exec .block { State.reset with is := assemble s2Key 1 s2Nonce })).ws =
      #v[0xe4e7f110, 0x15593bd1, 0x1fdd0f50, 0xc47120a3, 0xc7f4d1c7, 0x0368c033, 0x9aaa2204, 0x4e6cd4c3,
         0x466482d2, 0x09aa9f07, 0x05d7c214, 0xa2028bd9, 0xd19c12b5, 0xb94e16de, 0xe883d0cb, 0x4e3c50a2] := by
  decide

/-- CC20's printed bytes: the keystream block begins `10 f1 e7 e4 d1 3b 59 15`, and S2's last byte is `4e`. -/
theorem test_block_bytes :
    let k := (nextOf (exec .block { State.reset with is := assemble s2Key 1 s2Nonce })).ksb
    k[0] = 0x10 ∧ k[1] = 0xf1 ∧ k[2] = 0xe7 ∧ k[3] = 0xe4 ∧ k[4] = 0xd1 ∧ k[5] = 0x3b ∧ k[63] = 0x4e := by
  decide

/-- V10: the block after counter `ffffffff` is the block of counter 0. -/
theorem test_counter_wrap :
    blockWords (bumpCounter (assemble s2Key 0xffffffff s2Nonce)) =
      #v[0xfd91dc8a, 0xf5f0f49f, 0x50ad0f1b, 0x37d615ff, 0xa2fd0ee4, 0xc752cc06, 0x0042a783, 0x82153c50,
         0x363398cd, 0xd5540a7d, 0x999e3c7d, 0xe60e498f, 0x1f4ca39c, 0xa739e9f9, 0x2dc58455, 0xd4350a69] := by
  decide

/-- V9: `ff 00 a5` becomes `ef f1 42`. -/
theorem test_stream_three_bytes :
    let t := nextOf (exec .stream unitS2)
    t.mem = [(0x1000, 0xef), (0x1001, 0xf1), (0x1002, 0x42)] ∧ statusWord t = 0x00000002 ∧
    t.ws = Vector.replicate 16 0 ∧ t.ctr = 1 := by decide

/-- R179 on the buffer of V9, its last byte not answering: `ef f1` then `a5` as it was, `STATUS` as in V14 (c). -/
theorem test_stream_bus :
    let t := nextOf (exec .stream (unitBlocked 0x1002))
    t.mem = [(0x1000, 0xef), (0x1001, 0xf1), (0x1002, 0xa5)] ∧ statusWord t = 0x00000404 ∧
    t.errInfo = 0x00001002 ∧ t.is = Vector.replicate 16 0 := by decide

/-! ### The shell (V11, V14, P4) -/

theorem test_issue_accepted :
    let t := nextOf (step (State.reset.withHostAction (.wr 0 32 0x0100278d)))
    statusWord t = 0x00000001 ∧ t.errInfo = 0 ∧ t.cur = 0x0100278d := by decide

theorem test_issue_bad_index :
    let t := nextOf (step ({ State.reset with done := true }.withHostAction (.wr 0 32 0x01002788)))
    statusWord t = 0x00000204 ∧ t.errInfo = 0x01002788 := by decide

theorem test_issue_illegal :
    let t := nextOf (step ({ State.reset with done := true }.withHostAction (.wr 0 32 0)))
    statusWord t = 0x00000104 ∧ t.errInfo = 0 := by decide

/-- V14 (b): `BASE + LEN` one block past the top. -/
theorem test_issue_range :
    let t := nextOf (step ({ State.reset with base := 0xfffffff0, len := 0x20 }.withHostAction
      (.wr 0 32 0x03000000)))
    statusWord t = 0x00000304 ∧ t.errInfo = 0x03000000 := by decide

/-- V14 (b): `BASE + LEN = 2^32` exactly is accepted. -/
theorem test_issue_top_of_memory :
    statusWord (nextOf (step ({ State.reset with base := 0xfffffff0, len := 0x10 }.withHostAction
      (.wr 0 32 0x03000000)))) = 0x00000001 := by decide

/-- V14 (d): bit 1 leaves the error, bit 2 clears it. -/
theorem test_status_clear :
    statusWord (nextOf (step (inError.withHostAction (.wr 4 32 2)))) = 0x00000204 ∧
    statusWord (nextOf (step (inError.withHostAction (.wr 4 32 4)))) = 0 ∧
    (nextOf (step (inError.withHostAction (.wr 4 32 4)))).errInfo = 0 := by decide

/-- P1: the bus offset of `WR WS13`, `0F4`. -/
theorem test_register_offset :
    Script.wr (.ws 13) 0x3d631689 = .wr 0x0F4 32 0x3d631689 ∧
    (nextOf (step (State.reset.withHostAction (.wr 0x0F4 32 0x3d631689)))).ws[13] = 0x3d631689 := by decide

/-- P2: the expansions of R98. -/
theorem test_script :
    Script.cround.length = 8 ∧ Script.dround[0]? = some (.wr 0 32 0x010005AF) ∧
    Script.dblround.length = 16 ∧ Script.ldWs s1 ≠ [] ∧ (Script.ldWs s1)[2]? = some (.wr 0x0C8 32 0x516461b1) ∧
    Script.encrypt 0x2000 114 1 = [.wr 0x010 32 0x00002000, .wr 0x014 32 0x00000072, .wr 0x018 32 1,
      .wr 0x000 32 0x03000000, .wait] := by decide

theorem test_fetch_word : step (State.reset.withFetchWord 32 0x02000000) =
    exec .block (accepted .block State.reset) := by rfl

/-! ### Witnesses: for each statement with hypotheses, a state and operands that meet them together, at the
boundary values of its clauses -/

theorem witness_EncodeOfDecodeIsTheWord :
    decode 0x0100FEDC#32 = .command (.qr 15 14 13 12) ∧ decode 0x03000000#32 = .command .stream := by decide

theorem witness_DecodingHasFourOutcomes :
    (0x01000000#32).extractLsb' 16 16 = 0x0100#16 ∧ (0x0100FFFF#32).extractLsb' 16 16 = 0x0100#16 ∧
    ((0x01010000#32).extractLsb' 16 16 ≠ 0x0100#16 ∧ 0x01010000#32 ≠ 0x02000000#32 ∧
      0x01010000#32 ≠ 0x03000000#32) ∧
    ((0x02000001#32).extractLsb' 16 16 ≠ 0x0100#16 ∧ 0x02000001#32 ≠ 0x02000000#32 ∧
      0x02000001#32 ≠ 0x03000000#32) := by decide

theorem witness_IllegalWordsAreRejected :
    (State.reset.busy = false ∧ State.reset.err = false) ∧
    (∃ why, decode 0x00FFFFFF#32 = .illegal why) ∧ (∃ why, decode 0x04000000#32 = .illegal why) ∧
    (∃ why, decode 0xFFFFFFFF#32 = .illegal why) ∧ (∃ why, decode 0x01010000#32 = .illegal why) ∧
    (∃ why, decode 0x02000001#32 = .illegal why) ∧ (∃ why, decode 0x03FFFFFF#32 = .illegal why) :=
  ⟨by decide, ⟨.opcode, by decide⟩, ⟨.opcode, by decide⟩, ⟨.opcode, by decide⟩, ⟨.zeroField, by decide⟩,
    ⟨.zeroField, by decide⟩, ⟨.zeroField, by decide⟩⟩

theorem witness_RegisterMapPlacesEverySlot :
    regAt 0x00C = .reserved ∧ regAt 0x01C = .reserved ∧ regAt 0x04C = .reserved ∧ regAt 0x07C = .reserved ∧
    regAt 0x140 = .reserved ∧ regAt 0x1FC = .reserved ∧ Reg.ksbw 15 ≠ .reserved := by decide

theorem witness_RotationMovesBitsLeft : (0 < 1 ∧ 1 < 32) ∧ (0 < 31 ∧ 31 < 32) := by decide

theorem witness_QuarterRoundTouchesFourSlots :
    indicesDistinct 2 7 8 13 = true ∧ indicesDistinct 15 14 13 12 = true ∧
    ((0 : Idx) ≠ 2 ∧ (0 : Idx) ≠ 7 ∧ (0 : Idx) ≠ 8 ∧ (0 : Idx) ≠ 13) ∧
    (let T : Vec16 := ((((Vector.replicate 16 (0 : Word)).set 15 s1[2]).set 14 s1[7]).set 13 s1[8]).set 12 s1[13]
     s1[2] = T[15] ∧ s1[7] = T[14] ∧ s1[8] = T[13] ∧ s1[13] = T[12]) := by decide

theorem witness_DisjointQuarterRoundsCommute :
    indicesDistinct 0 4 8 12 = true ∧ indicesDistinct 3 7 11 15 = true ∧
    ([0, 4, 8, 12] : List Idx).all (fun i => !([3, 7, 11, 15] : List Idx).contains i) = true := by decide

theorem witness_QrLeavesTheArxValues :
    (15 : Idx) ≠ 14 ∧ (15 : Idx) ≠ 13 ∧ (15 : Idx) ≠ 0 ∧ (14 : Idx) ≠ 13 ∧ (14 : Idx) ≠ 0 ∧ (13 : Idx) ≠ 0 := by
  decide

theorem witness_QrWithRepeatedIndicesIsRejected :
    State.reset.busy = false ∧ State.reset.err = false ∧
    ∀ q ∈ [((0, 0, 1, 2) : Quad), (0, 1, 0, 2), (0, 1, 2, 0), (1, 0, 0, 2), (1, 0, 2, 0), (1, 2, 15, 15)],
      q.1 = q.2.1 ∨ q.1 = q.2.2.1 ∨ q.1 = q.2.2.2 ∨ q.2.1 = q.2.2.1 ∨ q.2.1 = q.2.2.2 ∨
        q.2.2.1 = q.2.2.2 := by simp [State.reset]

theorem witness_RoundIsIndependentOfOrder :
    columnQuads.reverse.Perm columnQuads ∧ diagonalQuads.reverse.Perm diagonalQuads :=
  ⟨List.reverse_perm _, List.reverse_perm _⟩

theorem witness_BlockIsEightyQuarterRoundCommands :
    { State.reset with ws := s1, is := s1 }.ws = { State.reset with ws := s1, is := s1 }.is := rfl

theorem witness_BlockOfZeroIsZero : State.reset.is = Vector.replicate 16 0 := rfl

theorem witness_KeystreamWindowEqualsWorkingState : ∃ t, exec .block State.reset = .next t :=
  exists_of_runs (by decide)

theorem witness_QrAndBlockLeaveTheRestAlone :
    (Instr.qr 0 1 2 3 ≠ .stream ∧ ∃ t, exec (.qr 0 1 2 3) State.reset = .next t) ∧
    (Instr.qr 0 1 2 2 ≠ .stream ∧ ∃ t, exec (.qr 0 1 2 2) State.reset = .next t) ∧
    (Instr.block ≠ .stream ∧ ∃ t, exec .block State.reset = .next t) :=
  ⟨⟨by decide, exists_of_runs (by decide)⟩, ⟨by decide, exists_of_runs (by decide)⟩,
    ⟨by decide, exists_of_runs (by decide)⟩⟩

/-- The hypothesis of the statements about a `STREAM` that completes. -/
theorem witness_StreamReady : StreamReady unitS2 :=
  ⟨by decide, by decide, by decide, by decide, by decide⟩

theorem witness_StreamXorsTheKeystream : StreamReady unitS2 ∧ 2 < unitS2.len.toNat :=
  ⟨witness_StreamReady, by decide⟩

/-- A wrapped counter is used: `CTR = ffffffff`, two blocks (R174). -/
theorem witness_CounterWrapsSilently :
    StreamReady { unitS2 with ctr := 0xffffffff, len := 65 } ∧ 64 * 1 + 0 < (65#32).toNat :=
  ⟨⟨by decide, by decide, by decide, by decide, by decide⟩, by decide⟩

theorem witness_StreamStopsAtTheFirstInaccessibleByte : ∀ f ∈ [0, 2],
    (unitBlocked (0x1000 + f)).mem.wf ∧
    (unitBlocked (0x1000 + f)).base.toNat + (unitBlocked (0x1000 + f)).len.toNat ≤ 2 ^ 32 ∧
    (unitBlocked (0x1000 + f)).plat.aw = 32 ∧
    (unitBlocked (0x1000 + f)).plat.touchesDevice (buffer (unitBlocked (0x1000 + f))) = false ∧
    (unitBlocked (0x1000 + f)).plat.touchesRegisters (buffer (unitBlocked (0x1000 + f))) = false ∧
    f < (unitBlocked (0x1000 + f)).len.toNat ∧
    (unitBlocked (0x1000 + f)).plat.accessible ((unitBlocked (0x1000 + f)).base.toNat + f) = false ∧
    ∀ i, i < f → (unitBlocked (0x1000 + f)).plat.accessible ((unitBlocked (0x1000 + f)).base.toNat + i) = true := by
  decide

theorem witness_EmptyStreamOnlyZeroesWorkingRegisters :
    { unitS2 with len := 0, base := 0xffffffff }.len = 0 ∧ (0xffffffff#32).toNat ≤ 2 ^ 32 := by decide

theorem witness_StreamTwiceRestoresTheBuffer : StreamReady unitS2 := witness_StreamReady

/-- No whole block, one block and a tail, and a message of whole blocks only. -/
theorem witness_StreamSplitsAtBlockBoundaries :
    unitS2.plat.aw ≤ 32 ∧ (StreamReady unitS2 ∧ 64 * 0 ≤ unitS2.len.toNat) ∧
    (StreamReady { unitS2 with len := 65 } ∧ 64 * 1 ≤ (65#32).toNat) ∧
    (StreamReady { unitS2 with len := 64 } ∧ 64 * 1 ≤ (64#32).toNat) :=
  ⟨by decide, ⟨witness_StreamReady, by decide⟩,
    ⟨⟨by decide, by decide, by decide, by decide, by decide⟩, by decide⟩,
    ⟨⟨by decide, by decide, by decide, by decide, by decide⟩, by decide⟩⟩

theorem witness_StreamAccessesEachByteOnceInOrder : StreamReady unitS2 := witness_StreamReady

/-- A `STREAM` that completes, one that stops with `BUS`, one out of range. -/
theorem witness_StreamLeavesTheRestAlone :
    (∃ t, exec .stream unitS2 = .next t) ∧ (∃ t, exec .stream (unitBlocked 0x1001) = .next t) ∧
    (∃ t, exec .stream { unitS2 with base := 0xfffffff0, len := 0x20 } = .next t) :=
  ⟨exists_of_runs (by decide), exists_of_runs (by decide), exists_of_runs (by decide)⟩

theorem witness_CommandsIgnoreOldWorkingRegisters : (0xfffffff0#32).toNat + (0x10#32).toNat ≤ 2 ^ 32 := by decide

theorem witness_StreamOverForbiddenMemoryIsRefused :
    unitS2.base.toNat + unitS2.len.toNat ≤ 2 ^ 32 ∧
    Platform.touchesRegisters { Platform.standard with regBase := 0x1002, regMapped := true } (buffer unitS2)
      = true ∧
    Platform.touchesRegisters { Platform.standard with device := [⟨0x1002, 1⟩] } (buffer unitS2) = false ∧
    Platform.touchesDevice { Platform.standard with device := [⟨0x1002, 1⟩] } (buffer unitS2) = true := by decide

theorem witness_CommandIssueFollowsTheOrderOfChecks :
    (accepted .block State.reset).busy = true ∧ (inError.busy = false ∧ inError.err = true) ∧
    (State.reset.busy = false ∧ State.reset.err = false) ∧
    (∃ why, decode 0x04000000#32 = .illegal why) ∧
    (decode 0x01002788#32 = .command (.qr 2 7 8 8) ∧ indicesDistinct 2 7 8 8 = false) ∧
    (decode 0x03000000#32 = .command .stream ∧ 2 ^ 32 < (0xffffffff#32).toNat + (2#32).toNat) ∧
    (Instr.stream.wellFormed = true ∧ (0xffffffff#32).toNat + (1#32).toNat ≤ 2 ^ 32) ∧
    (decode 0x0100278D#32 = .command (.qr 2 7 8 13) ∧ (Instr.qr 2 7 8 13).wellFormed = true) :=
  ⟨by decide, by decide, by decide, ⟨.opcode, by decide⟩, by decide, by decide, by decide, by decide⟩

theorem witness_RegisterWriteChangesOnlyThatRegister :
    State.reset.busy = false ∧ regAt 0x008 = .errInfo ∧ regAt 0x100 = .ksbw 0 ∧ regAt 0x13C = .ksbw 15 ∧
    regAt 0x00C = .reserved ∧ regAt 0x140 = .reserved ∧ regAt 0x1FC = .reserved := by decide

theorem witness_RegisterReadReturnsTheContents :
    State.reset.busy = false ∧ inError.busy = false ∧ (0x1FC#9).toNat % 4 = 0 ∧ regAt 0x1FC = .reserved := by decide

theorem witness_StatusWriteClearsWhatItsBitsName : inError.busy = false ∧ (6#32).getLsbD 2 = true := by decide

theorem witness_WritesWhileBusyAreIgnored :
    (accepted .stream unitS2).busy = true ∧ (0x0C0#9).toNat % 4 = 0 ∧ (0x000#9).toNat % 4 = 0 := by decide

theorem witness_ReadsWhileBusy :
    (accepted .block State.reset).busy = true ∧
    ((regAt 0x07C).working = false ∧ (regAt 0x140).working = false ∧ (regAt 0x004).working = false) ∧
    ((regAt 0x080).working = true ∧ (regAt 0x0C0).working = true ∧ (regAt 0x13C).working = true) := by decide

theorem witness_UndefinedRegisterAccessIsRefused :
    (16 ≠ 32 ∨ (0x0C0#9).toNat % 4 ≠ 0) ∧ (32 ≠ 32 ∨ (0x0C2#9).toNat % 4 ≠ 0) := by decide

/-- Two bytes right after a buffer the engine owns, and two bytes at the top of the data space. -/
theorem witness_HostDataAccessesPlaceAndReturnBytes :
    unitS2.mem.wf ∧ ∀ addr ∈ [0x1003, 2 ^ 32 - 2],
      addr + 2 ≤ 2 ^ (accepted .stream unitS2).plat.aw ∧
      (∀ r ∈ (accepted .stream unitS2).owned, r.meets ⟨addr, 2⟩ = false) ∧
      (accepted .stream unitS2).plat.touchesDevice ⟨addr, 2⟩ = false ∧
      (accepted .stream unitS2).plat.touchesRegisters ⟨addr, 2⟩ = false := by decide

/-- The last byte before, the first and the last of the buffer. -/
theorem witness_HostAccessToABusyBufferIsRefused :
    buffer unitS2 ∈ (accepted .stream unitS2).owned ∧
    (0xfff + 2 ≤ 2 ^ 32 ∧ 1 < 2 ∧ (buffer unitS2).contains (0xfff + 1) = true) ∧
    (0x1002 + 2 ≤ 2 ^ 32 ∧ 0 < 2 ∧ (buffer unitS2).contains (0x1002 + 0) = true) := by decide

/-- A step in error that keeps the report, one that clears it, an engine turn with the clearing write pending, and a
reset. -/
theorem witness_ErrorStaysUntilCleared :
    StatusLegal inError ∧ inError.err = true ∧
    (∃ t, step (inError.withHostAction (.wr 0 32 0x02000000)) = .next t) ∧
    (∃ t, step (inError.withHostAction (.wr 4 32 4)) = .next t) ∧
    (hostMoves (inError.withHostAction (.wr 4 32 4)) ∧ (4#32).getLsbD 2 = true) ∧
    (∃ t, step { inError with sched := [.engine], host := [.wr 4 32 4] } = .next t) ∧ (∃ t, step inError.withResetTurn = .next t) :=
  ⟨⟨by decide, by decide, by decide, by decide⟩, by decide, exists_of_runs (by decide),
    exists_of_runs (by decide), ⟨.inl ⟨_, rfl⟩, by decide⟩, exists_of_runs (by decide),
    exists_of_runs (by decide)⟩

theorem witness_ResetEventClearsTheUnit :
    streaming inError = false ∧ streaming (accepted .block unitS2) = false ∧
    (streaming (accepted .stream unitS2) = true ∧ unitS2.plat.touchesDevice (buffer unitS2) = false ∧
      unitS2.plat.touchesRegisters (buffer unitS2) = false) := by decide

theorem witness_ResetDuringStreamLeavesOldOrTransformedBytes :
    (accepted .stream unitS2).mem.wf ∧ streaming (accepted .stream unitS2) = true ∧
    unitS2.plat.touchesDevice (buffer unitS2) = false ∧
    unitS2.plat.touchesRegisters (buffer unitS2) = false := by decide

theorem witness_StepRunsTheLatchedCommand :
    (accepted .block State.reset).busy = true ∧ decode (accepted .block State.reset).cur = .command .block ∧
    (accepted .block State.reset).withEngineTurn.sched = [.engine] ∧ (accepted .block State.reset).sched = [] ∧
    (State.reset.busy = false ∧ State.reset.withEngineTurn.sched = [.engine]) := by
  decide

/-- A unit busy with a `STREAM` meets the invariant. -/
theorem busy_stream_meets_invariant : Inv (accepted .stream unitS2) :=
  ⟨⟨by decide, by decide, by decide, by decide⟩, by decide, by decide,
    ⟨by decide, by decide, by decide, by decide⟩,
    fun _ => ⟨.stream, by decide, by decide, fun _ => by decide⟩, fun _ => by decide, by decide, by decide⟩

theorem witness_EveryStepKeepsTheInvariant :
    Inv (accepted .stream unitS2) ∧ (∃ t, step (accepted .stream unitS2) = .next t) :=
  ⟨busy_stream_meets_invariant, exists_of_runs (by decide)⟩

theorem witness_StatusIsLegalInEveryReachableState :
    ∃ t, Reachable t ∧ t.busy = true ∧ ∃ u, Reachable u ∧ u.err = true :=
  ⟨_, .step (.launch Platform.standard [] [.wr 0 32 0x02000000] []
      ⟨by decide, by decide, by decide, by decide⟩ (by decide) (by decide)) rfl, rfl,
    _, .step (.launch Platform.standard [] [.wr 0 32 0x01002788] []
      ⟨by decide, by decide, by decide, by decide⟩ (by decide) (by decide)) rfl, rfl⟩

theorem witness_NoStepChangesThePlatform : ∃ t, step (accepted .block State.reset) = .next t :=
  exists_of_runs (by decide)

/-- A `STREAM` that completes, and a `MEMW` at a step of the host's: each changes the data space. -/
theorem witness_OnlyStreamHostAndResetChangeMemory :
    ((∃ t, step (accepted .stream unitS2) = .next t) ∧
      (nextOf (step (accepted .stream unitS2))).mem ≠ (accepted .stream unitS2).mem) ∧
    (hostMoves (State.reset.withHostAction (.memw 0 [1])) ∧
      (∃ t, step (State.reset.withHostAction (.memw 0 [1])) = .next t) ∧
      (nextOf (step (State.reset.withHostAction (.memw 0 [1])))).mem ≠ State.reset.mem) :=
  ⟨⟨exists_of_runs (by decide), by decide⟩, ⟨.inl ⟨_, rfl⟩, exists_of_runs (by decide), by decide⟩⟩

theorem witness_EngineNeverWritesOperands : ∃ t, step (accepted .stream unitS2).withEngineTurn = .next t :=
  exists_of_runs (by decide)

theorem witness_HostChangesNoRegisterWhileBusy :
    (accepted .block State.reset).busy = true ∧
    (∃ t, step ((accepted .block State.reset).withHostAction .wait) = .next t) ∧
    (∃ t, step ((accepted .block State.reset).withHostAction (.wr 0x0C0 32 0xdeadbeef)) = .next t) :=
  ⟨by decide, exists_of_runs (by decide), exists_of_runs (by decide)⟩

theorem witness_CompletionRaisesOnlyBus :
    Inv (accepted .stream unitS2) ∧ (accepted .stream unitS2).busy = true ∧
    (∃ t, step (accepted .stream unitS2).withEngineTurn = .next t) :=
  ⟨busy_stream_meets_invariant, by decide, exists_of_runs (by decide)⟩

theorem witness_EngineTurnEndsTheCommand : (accepted (.qr 0 1 2 3) State.reset).busy = true := by decide

theorem witness_WaitEndsInTwoSteps :
    let s := { accepted .block State.reset with host := [.wait] }
    s.busy = true ∧ s.sched = [] ∧ s.host = .wait :: [] ∧ ∃ t, step s = .next t :=
  ⟨by decide, by decide, by decide, exists_of_runs (by decide)⟩

/-- A run that ends, and one that ends in error (`STATUS` reads `00000204`, P4). -/
theorem witness_WaitEndsInTwoSteps_ended :
    (∃ t, ended { State.reset with host := [.wait] } t) ∧
    (∃ t, endedInError { inError with host := [.rd 4 32] } t ∧ t.rdata = 0x00000204) :=
  ⟨⟨_, _, .refl _, .inr ⟨rfl, rfl⟩, .inr rfl, rfl, by decide⟩,
    ⟨_, ⟨⟨_, .refl _, .inr ⟨rfl, rfl⟩, .inl rfl, rfl, by decide⟩, by decide⟩, by decide⟩⟩

/-- The script used up and the unit idle, but `STATUS` not read: the step does not end the run (R243). -/
theorem test_write_does_not_end_run (t : State) : ¬ endsRun { State.reset with host := [.wr 0 32 0x02000000] } t := by
  simp [endsRun]

end Sys2Proof.Tests
end

/-! ### Illegal command words (R95, R202) -/

namespace Sys2Proof

/-- A slice of `k` bits from bit `lo` up is the model's field `w[lo+k-1 : lo]` (R8). -/
theorem toNat_extractLsb'_eq_field (w : Word) (lo : Nat) {k : Nat} (hk : 0 < k) :
    (w.extractLsb' lo k).toNat = field w (lo + k - 1) lo := by
  rw [BitVec.extractLsb'_toNat, Nat.shiftRight_eq_div_pow, field,
    show lo + k - 1 - lo + 1 = k by omega]

/-- ILLEGAL is what is left when no row of the opcode map matches (R94). -/
theorem decode_illegal_iff (w : Word) :
    (∃ why, decode w = .illegal why) ↔
      field w 31 16 ≠ 0x0100 ∧ w ≠ 0x02000000 ∧ w ≠ 0x03000000 := by
  unfold decode
  split
  · next hq => simp [hq]
  · next hq =>
    split
    · next hb => simp [hb]
    · next hb =>
      split
      · next hs => simp [hs]
      · next hs => exact ⟨fun _ => ⟨hq, hb, hs⟩, fun _ => ⟨_, rfl⟩⟩

/-- The list of R95 as numbers: no row matches exactly when the opcode has no row, or the bits its format wants
zero are not. -/
theorem no_row_iff (w : Word) :
    (field w 31 16 ≠ 0x0100 ∧ w ≠ 0x02000000 ∧ w ≠ 0x03000000) ↔
      (field w 31 24 = 0 ∨ 4 ≤ field w 31 24 ∨ (field w 31 24 = 1 ∧ field w 23 16 ≠ 0) ∨
        ((field w 31 24 = 2 ∨ field w 31 24 = 3) ∧ field w 23 0 ≠ 0)) := by
  have hlt : w.toNat < 2 ^ 32 := w.isLt
  simp only [field, ne_eq, ← BitVec.toNat_inj, BitVec.reduceToNat, Nat.reduceSub, Nat.reduceAdd,
    Nat.reducePow] at hlt ⊢
  omega

namespace Machine

/-- Issue of an ILLEGAL word by an idle unit without error is taking `ILLEGAL_CMD` (R113 step 3a, R202). -/
theorem issue_of_illegal {s : State} {w : Word} (hb : s.busy = false) (he : s.err = false)
    (hw : ∃ why, decode w = .illegal why) : issue w s = raise .illegalCmd w { s with done := false } := by
  obtain ⟨why, hd⟩ := hw
  simp [issue, hb, he, hd]

/-- Taking an error with the unit idle changes the report and `DONE` only (R207). -/
theorem raise_of_idle {s : State} (e : Err) (info : Word) (hb : s.busy = false) :
    raise e info { s with done := false } =
      { s with done := false, err := true, errCode := e.code, errInfo := info } := by
  simp [raise, hb]

/-- The host's write to `CMD` while idle is command issue (R113). -/
theorem step_write_cmd {s : State} (w : Word) (hb : s.busy = false) :
    step (s.withHostAction (.wr 0 32 w)) = .next (issue w s) := by
  have hcmd : regAt 0 = .cmd := by decide
  rw [step_write s w (by decide), hcmd, writeReg, if_neg (by simp [hb])]

end Machine

/-- Settles O4: the words no row of the opcode map matches are R95's list, and issue takes `ILLEGAL_CMD` for each. -/
theorem illegalWordsAreRejected : Obligations.IllegalWordsAreRejected := by
  refine ⟨fun w => ?_, fun s w hb he hw => ?_⟩
  · rw [decode_illegal_iff, no_row_iff]
    simp only [ne_eq, BitVec.le_def, ← BitVec.toNat_inj]
    rw [toNat_extractLsb'_eq_field w 24 (by decide), toNat_extractLsb'_eq_field w 16 (by decide),
      toNat_extractLsb'_eq_field w 0 (by decide)]
    rfl
  · rw [Machine.step_write_cmd w hb, Machine.issue_of_illegal hb he hw, Machine.raise_of_idle _ _ hb]
    rfl

end Sys2Proof

/-! ### Host transactions: command issue and the write to `STATUS` (R113, R114, R117) -/

namespace Sys2Proof.Machine

/-- While busy a register write is ignored (R116). -/
theorem writeReg_of_busy {s : State} (r : Reg) (v : Word) (hb : s.busy = true) : writeReg r v s = s := if_pos hb

/-- While idle a write to a slot other than `CMD` changes that slot only (R111). -/
theorem writeReg_of_idle {s : State} {r : Reg} (v : Word) (hb : s.busy = false) (hr : r ≠ .cmd) :
    writeReg r v s = writeSlot r v s := by
  cases r with
  | cmd => exact absurd rfl hr
  | _ => simp [writeReg, hb]

/-- While in error command issue is ignored (R113 step 2). -/
theorem issue_of_err {s : State} (w : Word) (he : s.err = true) : issue w s = s := by
  simp [issue, he]

/-- The checks of R113 steps 3b and 3c do not read `DONE`. -/
theorem admission_clearDone (i : Instr) (s : State) : admission i { s with done := false } = admission i s := by
  cases i <;> rfl

/-- Issue of a command that a check rejects takes that check's error (R113 steps 3b and 3c). -/
theorem issue_of_rejected {s : State} {w : Word} {i : Instr} {e : Err} (hb : s.busy = false)
    (he : s.err = false) (hd : decode w = .command i) (ha : admission i s = some e) :
    issue w s = raise e w { s with done := false } := by
  rw [issue, if_neg (by simp [hb]), if_neg (by simp [he])]
  simp only [hd, admission_clearDone, ha]

/-- Issue of a command that no check rejects accepts it (R113 step 3d, R114). -/
theorem issue_of_admitted {s : State} {w : Word} {i : Instr} (hb : s.busy = false)
    (he : s.err = false) (hd : decode w = .command i) (ha : admission i s = none) :
    issue w s = accept w { s with done := false } := by
  rw [issue, if_neg (by simp [hb]), if_neg (by simp [he])]
  simp only [hd, admission_clearDone, ha]

/-- A `QR` with repeated indices is rejected with `BAD_INDEX` (R113 step 3b, R203). -/
theorem admission_qr_of_repeated {a b c d : Idx} (s : State) (h : indicesDistinct a b c d = false) :
    admission (.qr a b c d) s = some .badIndex := by
  simp [admission, qrError, h]

/-- A `STREAM` whose buffer leaves the data space is rejected with `RANGE` (R113 step 3c, R204). -/
theorem admission_stream_of_out_of_range {s : State} (h : 2 ^ s.plat.aw < s.base.toNat + s.len.toNat) :
    admission .stream s = some .range := by
  have hr : ¬ bufferInRange s = true := fun hr => Nat.not_le.mpr h (bufferInRange_iff.mp hr)
  exact if_neg hr

/-- A well-formed command, in range where it is a `STREAM`, passes the checks (R113 steps 3b and 3c). -/
theorem admission_of_admissible {s : State} {i : Instr} (hw : i.wellFormed = true)
    (hr : i = .stream → s.base.toNat + s.len.toNat ≤ 2 ^ s.plat.aw) : admission i s = none := by
  cases i with
  | qr a b c d => exact if_pos ((indicesDistinct_eq_wellFormed a b c d).trans hw)
  | block => rfl
  | stream => exact if_pos (bufferInRange_iff.mpr (hr rfl))

/-- A rejected command word leaves the idle unit with that error's report and `DONE` clear (R113, R207). -/
theorem step_write_cmd_of_rejected {s : State} {w : Word} {i : Instr} {e : Err} (hb : s.busy = false)
    (he : s.err = false) (hd : decode w = .command i) (ha : admission i s = some e) :
    step (s.withHostAction (.wr 0 32 w)) =
      .next { s with done := false, err := true, errCode := e.code, errInfo := w } := by
  rw [step_write_cmd w hb, issue_of_rejected hb he hd ha, raise_of_idle e w hb]

/-- The `STATUS` write field by field: bit 1 clears `DONE`, bit 2 the error (R117). -/
theorem writeStatus_eq (v : Word) (s : State) :
    writeStatus v s = { s with
      done := s.done && !v.getLsbD 1
      err := s.err && !v.getLsbD 2
      errCode := if v.getLsbD 2 then 0 else s.errCode
      errInfo := if v.getLsbD 2 then 0 else s.errInfo } := by
  unfold writeStatus
  cases v.getLsbD 1 <;> cases v.getLsbD 2 <;> simp [clearError]

end Sys2Proof.Machine

namespace Sys2Proof

open Machine

/-- Settles O34: a write to `CMD` is command issue, and each outcome of R113 is one lemma about `issue`. -/
theorem commandIssueFollowsTheOrderOfChecks : Obligations.CommandIssueFollowsTheOrderOfChecks := by
  refine fun s w => ⟨fun hb => ?busy, fun hb he => ?inError, fun hb he =>
    ⟨fun hw => ?illegal, fun a b c d hd hq => ?repeated, fun hd hr => ?outOfRange, fun i hd hw hr => ?accepted⟩⟩
  case busy => rw [step_write s w (by decide), writeReg_of_busy _ _ hb]
  case inError => rw [step_write_cmd w hb, issue_of_err w he]
  case illegal => rw [step_write_cmd w hb, issue_of_illegal hb he hw, raise_of_idle _ _ hb]; rfl
  case repeated => exact step_write_cmd_of_rejected hb he hd (admission_qr_of_repeated s hq)
  case outOfRange => exact step_write_cmd_of_rejected hb he hd (admission_stream_of_out_of_range hr)
  case accepted =>
    exact ⟨_, by rw [step_write_cmd w hb, issue_of_admitted hb he hd (admission_of_admissible hw hr)]; rfl⟩

/-- Settles O38: offset `0x004` is `STATUS`, and an idle unit's write to it is `writeStatus`. -/
theorem statusWriteClearsWhatItsBitsName : Obligations.StatusWriteClearsWhatItsBitsName := by
  intro s v hb
  have hstatus : regAt 0x004 = .status := by decide
  rw [step_write s v (by decide), hstatus, writeReg_of_idle v hb (by decide), writeSlot, writeStatus_eq]

end Sys2Proof

/-! ### The quarter-round unit: addition and the `QR` command (R130, R133, R135) -/

namespace Sys2Proof.Machine

/-- `add32` on natural numbers: the sum, its carry out dropped (R130). -/
theorem add32_toNat (x y : Word) : (add32 x y).toNat = (x.toNat + y.toNat) % 2 ^ 32 := BitVec.toNat_add x y

/-- `qr4` is the ARX sequence of R133 on sums, exclusive ors and rotations of words. -/
theorem qr4_eq_arx (xa xb xc xd : Word) :
    qr4 xa xb xc xd =
      let a1 := xa + xb
      let d1 := (xd ^^^ a1).rotateLeft 16
      let c1 := xc + d1
      let b1 := (xb ^^^ c1).rotateLeft 12
      let a2 := a1 + b1
      let d2 := (d1 ^^^ a2).rotateLeft 8
      let c2 := c1 + d2
      let b2 := (b1 ^^^ c2).rotateLeft 7
      (a2, b2, c2, d2) := rfl

/-- `QR` with distinct indices completes with the quarter round of `WS` (R135). -/
theorem exec_qr_of_distinct {a b c d : Idx} (s : State) (h : indicesDistinct a b c d = true) :
    exec (.qr a b c d) s = .next (complete { s with ws := qrf s.ws a b c d }) := by
  simp only [exec, execQr, qrError, if_pos h]

end Sys2Proof.Machine

namespace Sys2Proof

open Machine

/-- Settles O7: `add32` is the addition of the ring of 32-bit words. -/
theorem additionDropsTheCarry : Obligations.AdditionDropsTheCarry :=
  ⟨add32_toNat, BitVec.add_comm, BitVec.add_assoc, BitVec.add_zero, by decide, by decide, by decide⟩

/-- Settles O13: `QR` completes with `qrf` of `WS`, which puts `qr4` into the named slots and leaves the others. -/
theorem qrLeavesTheArxValues : Obligations.QrLeavesTheArxValues := by
  intro s a b c d hab hac had hbc hbd hcd
  have hdistinct : indicesDistinct a b c d = true := indicesDistinct_iff.mpr ⟨hab, hac, had, hbc, hbd, hcd⟩
  refine ⟨_, exec_qr_of_distinct s hdistinct, ?named, fun i ha hb hc hd => ?others, ?_⟩
  case named =>
    have hnamed := qrf_named (S := s.ws) hdistinct
    rw [qr4_eq_arx] at hnamed
    rwa [complete_ws]
  case others =>
    rw [complete_ws]
    exact qrf_other ha hb hc hd
  · simp

end Sys2Proof

/-! ### The block cipher unit: quadruples and the `BLOCK` command (R150, R156, R157, R159) -/

namespace Sys2Proof.Machine

/-- `BLOCK` completes with the block words of `IS` in `WS` and their bytes in `KSB` (R159). -/
theorem exec_block (s : State) :
    exec .block s =
      .next (complete { s with ws := blockWords s.is, ksb := serialise (blockWords s.is) }) := by
  simp only [exec, execBlock]

/-- A word of the block function is the mixed word plus the input word (R156, R158). -/
theorem blockWords_get (X : Vec16) (i : Idx) : (blockWords X)[i] = (twentyRounds X)[i] + X[i] :=
  feedForward_get X (twentyRounds X) i

/-- Byte `4j + k` of the serialisation is byte `k` of word `j` (R157). -/
theorem serialise_byte (Z : Vec16) (j : Fin 16) (k : Fin 4) :
    (serialise Z)[4 * j.val + k.val] = byteOf Z[j] k.val := by
  have hword : (4 * j.val + k.val) / 4 = j.val := by omega
  have hbyte : (4 * j.val + k.val) % 4 = k.val := by omega
  rw [serialise_get]
  simp only [hword, hbyte, Fin.getElem_fin]

end Sys2Proof.Machine

namespace Sys2Proof

open Machine

/-- Settles O18: `WS` by the feed-forward, `KSB` by the serialisation, the rest by completion. -/
theorem blockLeavesTheBlockFunction : Obligations.BlockLeavesTheBlockFunction := by
  intro s
  refine ⟨_, exec_block s, fun i => ?words, fun j k => ?bytes, ?_⟩
  case words => rw [complete_ws, blockWords_get]
  case bytes => rw [complete_ksb, complete_ws, serialise_byte, byteOf]
  · simp only [complete_is, complete_busy, complete_done, complete_err, complete_errCode, complete_errInfo,
      and_self]

/-- Settles O15: the formulas at the four `k`, and the count of each of the 16 indices, are evaluated. -/
theorem quadruplesCoverEveryIndexOnce : Obligations.QuadruplesCoverEveryIndexOnce := by
  refine ⟨?formulas, rfl, rfl, ?counts⟩
  case formulas => decide
  case counts => decide

end Sys2Proof

/-! ### The stream cipher engine: state assembly and the empty buffer (R171, R177, R182) -/

namespace Sys2Proof

/-- A region without bytes meets no other region. -/
theorem Region.meets_of_size_eq_zero (r : Region) {x : Region} (hx : x.size = 0) : r.meets x = false := by
  simp [Region.meets, hx]

namespace Machine

/-- Words 4 to 11 of the assembled State are the key words (R171). -/
theorem assemble_key (key : Vector Word 8) (c : Word) (nonce : Vector Word 3) (j : Fin 8) :
    (assemble key c nonce)[4 + j.val] = key[j] := by
  fin_cases j <;> rfl

/-- Words 13 to 15 of the assembled State are the nonce words (R171). -/
theorem assemble_nonce (key : Vector Word 8) (c : Word) (nonce : Vector Word 3) (j : Fin 3) :
    (assemble key c nonce)[13 + j.val] = nonce[j] := by
  fin_cases j <;> rfl

/-- A region without bytes is never refused (R66, R73). -/
theorem bufferRefusal_of_size_eq_zero (p : Platform) {r : Region} (hr : r.size = 0) :
    bufferRefusal p r = none := by
  have hregs : p.touchesRegisters r = false := by
    rw [Platform.touchesRegisters, Region.meets_of_size_eq_zero _ hr, Bool.and_false]
  have hdev : p.touchesDevice r = false :=
    List.any_eq_false.mpr fun d _ => by simp [Region.meets_of_size_eq_zero d hr]
  exact bufferRefusal_eq_none.mpr ⟨hregs, hdev⟩

/-- The pass over an empty buffer accesses nothing and does not fail (R182). -/
theorem streamPass_of_len_eq_zero {s : State} (h : s.len = 0) : streamPass s = ⟨s.mem, [], none⟩ := by
  have hnil : streamBytes s = [] :=
    List.eq_nil_of_length_eq_zero (by rw [streamBytes_length, h]; rfl)
  rw [streamPass, hnil, xorPass]

/-- A `STREAM` in range over ordinary memory whose pass reaches the end completes, the working registers zeroed
(R177). -/
theorem exec_stream_of_pass {s : State} (hr : s.base.toNat + s.len.toNat ≤ 2 ^ s.plat.aw)
    (hb : bufferRefusal s.plat (buffer s) = none) (hf : (streamPass s).failed = none) :
    exec .stream s = .next (complete (zeroWorking { s with mem := (streamPass s).mem })) := by
  rw [exec, execStream_of_in_range hr hb, hf]

end Machine

open Machine

/-- Settles O24: the fixed words by evaluation, the key and the nonce words by `assemble_key` and
`assemble_nonce`. -/
theorem assembledStateLayout : Obligations.AssembledStateLayout := fun key c nonce =>
  ⟨rfl, rfl, rfl, rfl, assemble_key key c nonce, rfl, assemble_nonce key c nonce⟩

/-- Settles O27: an empty buffer is in range and never refused, and its pass is the empty one, so `STREAM`
completes on the memory it found. -/
theorem emptyStreamOnlyZeroesWorkingRegisters : Obligations.EmptyStreamOnlyZeroesWorkingRegisters := by
  intro s hlen hbase
  have hzero : s.len.toNat = 0 := by rw [hlen]; rfl
  have hpass := streamPass_of_len_eq_zero hlen
  have hrun := exec_stream_of_pass (s := s) (by rwa [hzero, Nat.add_zero])
    (bufferRefusal_of_size_eq_zero s.plat hzero) (by rw [hpass])
  refine ⟨_, hrun, by rw [hzero]; rfl, ?mem, by rw [hpass], ?_⟩
  case mem => rw [complete_mem, zeroWorking_mem, hpass]
  · simp only [complete_is, complete_ws, complete_ksb, complete_done, complete_busy, complete_err,
      zeroWorking_is, zeroWorking_ws, zeroWorking_ksb, zeroWorking_err, and_self]

end Sys2Proof

/-! ### A buffer byte that does not answer: `BUS` and the partial result (R179, R205) -/

namespace Sys2Proof.Machine

/-- A `STREAM` in range over ordinary memory whose pass fails at an address raises `BUS` with that address, the
memory as the pass left it and the working registers zeroed (R179, R205). -/
theorem exec_stream_of_failed_pass {s : State} {a : Nat} (hr : s.base.toNat + s.len.toNat ≤ 2 ^ s.plat.aw)
    (hb : bufferRefusal s.plat (buffer s) = none) (hf : (streamPass s).failed = some a) :
    exec .stream s =
      .next (abort .bus (BitVec.ofNat 32 a) (zeroWorking { s with mem := (streamPass s).mem })) := by
  rw [exec, execStream_of_in_range hr hb, hf]

/-- With `f` the least index whose byte does not answer, the pass of a `STREAM` xors the keystream into the bytes
below `f`, leaves every other byte alone and fails at `BASE + f` (R175, R179). -/
theorem streamPass_of_first_inaccessible {s : State} {f : Nat} (hm : s.mem.wf) (hf : f < s.len.toNat)
    (hstop : s.plat.accessible (s.base.toNat + f) = false)
    (hacc : ∀ i, i < f → s.plat.accessible (s.base.toNat + i) = true) :
    (∀ i, i < f → (streamPass s).mem.read (s.base.toNat + i) =
      s.mem.read (s.base.toNat + i) ^^^ keystreamByte s i) ∧
    (∀ x, x < s.base.toNat ∨ s.base.toNat + f ≤ x → (streamPass s).mem.read x = s.mem.read x) ∧
    (streamPass s).failed = some (s.base.toNat + f) := by
  have hlen : f < (streamBytes s).length := by rwa [streamBytes_length]
  obtain ⟨hbelow, -, hfailed, hother⟩ :=
    xorPass_spec hm s.base.toNat (streamBytes s) f hlen.le hacc (.inr hstop)
  refine ⟨fun i hi => ?_, hother, ?_⟩
  · rw [streamPass, hbelow i hi, streamBytes_get, xor8]
  · rw [streamPass, hfailed, if_neg hlen.ne]

end Sys2Proof.Machine

namespace Sys2Proof

open Machine

/-- Settles O26: the pass fails at `BASE + f`, so `STREAM` aborts with `BUS` on the memory the pass left; the range
check keeps that address below `2^32`, so `ERRINFO` holds it whole. -/
theorem streamStopsAtTheFirstInaccessibleByte : Obligations.StreamStopsAtTheFirstInaccessibleByte := by
  intro s f hm hrange haw hdev hregs hf hstop hacc
  obtain ⟨hbelow, hother, hfailed⟩ := streamPass_of_first_inaccessible hm hf hstop hacc
  have hword : s.base.toNat + f < 2 ^ 32 := by
    have hspace : 2 ^ s.plat.aw ≤ 2 ^ 32 := Nat.pow_le_pow_right (by decide) haw
    omega
  refine ⟨_, exec_stream_of_failed_pass hrange (bufferRefusal_eq_none.mpr ⟨hregs, hdev⟩) hfailed,
    hbelow, hother, ?_⟩
  simp only [abort_is, abort_ws, abort_ksb, abort_key, abort_nonce, abort_ctr, abort_base, abort_len, abort_busy,
    abort_done, abort_err, abort_errCode, abort_errInfo, Err.code, zeroWorking_is, zeroWorking_ws, zeroWorking_ksb,
    zeroWorking_key, zeroWorking_nonce, zeroWorking_ctr, zeroWorking_base, zeroWorking_len, BitVec.toNat_ofNat,
    Nat.mod_eq_of_lt hword, and_self]

end Sys2Proof

/-! ### The decoder and the encoder (R91, R93, R94) -/

namespace Sys2Proof

/-- The four outcomes of R94, each with the test that selects it. -/
theorem decode_cases (w : Word) :
    (field w 31 16 = 0x0100 ∧ decode w =
      .command (.qr (idxField w 15 12) (idxField w 11 8) (idxField w 7 4) (idxField w 3 0))) ∨
    (w = 0x02000000 ∧ decode w = .command .block) ∨
    (w = 0x03000000 ∧ decode w = .command .stream) ∨
    (∃ why, decode w = .illegal why) := by
  by_cases hq : field w 31 16 = 0x0100
  · exact .inl ⟨hq, if_pos hq⟩
  by_cases hb : w = 0x02000000
  · exact .inr (.inl ⟨hb, by subst hb; decide⟩)
  by_cases hs : w = 0x03000000
  · exact .inr (.inr (.inl ⟨hs, by subst hs; decide⟩))
  · exact .inr (.inr (.inr ((decode_illegal_iff w).mpr ⟨hq, hb, hs⟩)))

/-- A word whose upper half is `0x0100` is a `QR` of its four index fields (R94). -/
theorem decode_of_qr_row {w : Word} (h : field w 31 16 = 0x0100) :
    decode w = .command (.qr (idxField w 15 12) (idxField w 11 8) (idxField w 7 4) (idxField w 3 0)) :=
  if_pos h

/-- The word of a `QR` on natural numbers, the sum of R97 and R135. -/
theorem encode_qr_toNat (a b c d : Idx) :
    (encode (.qr a b c d)).toNat = 0x01000000 + 0x1000 * a.val + 0x100 * b.val + 0x10 * c.val + d.val := by
  rw [encode, BitVec.toNat_ofNat]
  omega

/-- A 4-bit field that holds the value of an index reads as that index (R92). -/
theorem idxField_eq {w : Word} {hi lo : Nat} {i : Idx} (h : field w hi lo = i.val) : idxField w hi lo = i := by
  rw [idxField, h]
  exact Fin.ofNat_val_eq_self i

/-- The word of a `QR` decodes to it: each index stands in its own field (R91, R135). -/
theorem decode_encode_qr (a b c d : Idx) : decode (encode (.qr a b c d)) = .command (.qr a b c d) := by
  have hw := encode_qr_toNat a b c d
  rw [decode_of_qr_row (by rw [field, hw]; omega)]
  rw [idxField_eq (i := a) (by rw [field, hw]; omega), idxField_eq (i := b) (by rw [field, hw]; omega),
    idxField_eq (i := c) (by rw [field, hw]; omega), idxField_eq (i := d) (by rw [field, hw]; omega)]

/-- The decoder undoes the encoder (R91, R94). -/
theorem decode_encode (i : Instr) : decode (encode i) = .command i := by
  cases i with
  | qr a b c d => exact decode_encode_qr a b c d
  | block => decide
  | stream => decide

/-- A word in the row of `QR` is the word of the `QR` of its four fields (R91, R135). -/
theorem encode_qr_of_fields {w : Word} (h : field w 31 16 = 0x0100) :
    encode (.qr (idxField w 15 12) (idxField w 11 8) (idxField w 7 4) (idxField w 3 0)) = w := by
  apply BitVec.eq_of_toNat_eq
  rw [encode_qr_toNat]
  simp only [idxField, Fin.val_ofNat, field, Nat.reduceSub, Nat.reduceAdd, Nat.reducePow] at h ⊢
  omega

/-- An index field of a word is the slice of its four bits (R8, R92). -/
theorem idxField_eq_extractLsb' (w : Word) (lo : Nat) : idxField w (lo + 4 - 1) lo = (w.extractLsb' lo 4).toFin := by
  apply idxField_eq
  rw [BitVec.val_toFin, toNat_extractLsb'_eq_field w lo (by decide)]

/-- Settles O1: the word of a `QR` has each index in its own field, the other two words are fixed. -/
theorem decodeOfEncodeIsTheCommand : Obligations.DecodeOfEncodeIsTheCommand := decode_encode

/-- Settles O2: of the four outcomes only three are commands, and each is the word of its command. -/
theorem encodeOfDecodeIsTheWord : Obligations.EncodeOfDecodeIsTheWord := by
  intro w i hi
  obtain ⟨hq, hd⟩ | ⟨hw, hd⟩ | ⟨hw, hd⟩ | ⟨why, hd⟩ := decode_cases w <;> rw [hd] at hi <;> cases hi
  · exact encode_qr_of_fields hq
  · exact hw.symm
  · exact hw.symm

/-- Settles O3: the tests of the decoder, its fields read as slices of bits. -/
theorem decodingHasFourOutcomes : Obligations.DecodingHasFourOutcomes := by
  intro w
  have hrow : w.extractLsb' 16 16 = 0x0100#16 ↔ field w 31 16 = 0x0100 := by
    rw [← BitVec.toNat_inj, toNat_extractLsb'_eq_field w 16 (by decide)]
    rfl
  refine ⟨fun hq => ?qr, fun hb => ?block, fun hs => ?stream, fun hq hb hs => ?illegal⟩
  case qr =>
    rw [decode_of_qr_row (hrow.mp hq), ← idxField_eq_extractLsb', ← idxField_eq_extractLsb',
      ← idxField_eq_extractLsb', ← idxField_eq_extractLsb']
  case block => subst hb; decide
  case stream => subst hs; decide
  case illegal => exact (decode_illegal_iff w).mpr ⟨fun h => hq (hrow.mpr h), hb, hs⟩

end Sys2Proof

/-! ### What the engine and the host leave alone (R110, R115) -/

namespace Sys2Proof.Machine

/-- What no turn of the engine touches: the operand registers, the platform and the host's side (R25 to R28, R115). -/
structure EngineFrame (s t : State) : Prop where
  key : t.key = s.key
  nonce : t.nonce = s.nonce
  ctr : t.ctr = s.ctr
  base : t.base = s.base
  len : t.len = s.len
  plat : t.plat = s.plat
  host : t.host = s.host
  sched : t.sched = s.sched
  rdata : t.rdata = s.rdata
  mdata : t.mdata = s.mdata
  owned : t.owned = s.owned

/-- A command that goes on leaves the operands and the host's side alone. -/
theorem exec_frame {i : Instr} {s t : State} (h : exec i s = .next t) : EngineFrame s t := by
  cases i with
  | qr a b c d => obtain ⟨-, rfl⟩ | ⟨-, rfl⟩ := execQr_cases h <;> constructor <;> simp
  | block => obtain rfl := execBlock_cases h; constructor <;> simp
  | stream =>
    obtain ⟨-, rfl⟩ | ⟨-, -, ⟨-, rfl⟩ | ⟨a, -, rfl⟩⟩ := execStream_cases h <;> constructor <;> simp

/-- A command that goes on ends its own life cycle (R115). -/
theorem exec_idle {i : Instr} {s t : State} (h : exec i s = .next t) : t.busy = false := by
  cases i with
  | qr a b c d => obtain ⟨-, rfl⟩ | ⟨-, rfl⟩ := execQr_cases h <;> rfl
  | block => obtain rfl := execBlock_cases h; rfl
  | stream => obtain ⟨-, rfl⟩ | ⟨-, -, ⟨-, rfl⟩ | ⟨a, -, rfl⟩⟩ := execStream_cases h <;> rfl

/-- A command that goes on leaves the data space as it was, unless it is a `STREAM` in range, which leaves what its
pass does (R60, R69). -/
theorem exec_mem_cases {i : Instr} {s t : State} (h : exec i s = .next t) :
    t.mem = s.mem ∨
    (i = .stream ∧ s.base.toNat + s.len.toNat ≤ 2 ^ s.plat.aw ∧ t.mem = (streamPass s).mem) := by
  cases i with
  | qr a b c d => obtain ⟨-, rfl⟩ | ⟨-, rfl⟩ := execQr_cases h <;> exact .inl rfl
  | block => obtain rfl := execBlock_cases h; exact .inl rfl
  | stream =>
    obtain ⟨-, rfl⟩ | ⟨hr, -, ⟨-, rfl⟩ | ⟨a, -, rfl⟩⟩ := execStream_cases h
    · exact .inl rfl
    · exact .inr ⟨rfl, hr, rfl⟩
    · exact .inr ⟨rfl, hr, rfl⟩

/-- An engine turn that goes on leaves the operands and the host's side alone. -/
theorem engineTurn_frame {s t : State} (h : engineTurn s = .next t) : EngineFrame s t := by
  obtain ⟨-, rfl⟩ | ⟨-, ⟨i, -, hx⟩ | ⟨why, -, rfl⟩⟩ := engineTurn_cases h
  · constructor <;> simp
  · exact exec_frame hx
  · constructor <;> simp

/-- An engine turn that goes on leaves the unit idle. -/
theorem engineTurn_idle {s t : State} (h : engineTurn s = .next t) : t.busy = false := by
  obtain ⟨hb, rfl⟩ | ⟨-, ⟨i, -, hx⟩ | ⟨why, -, rfl⟩⟩ := engineTurn_cases h
  · exact hb
  · exact exec_idle hx
  · rfl

/-- No action of the host changes the platform. -/
theorem hostAct_plat {act : HostAction} {s t : State} (h : hostAct act s = .next t) : t.plat = s.plat := by
  obtain ⟨off, v, -, -, rfl⟩ | ⟨off, -, -, rfl⟩ | ⟨addr, bytes, -, -, rfl⟩ | ⟨addr, count, -, -, rfl⟩ |
    ⟨-, ⟨-, rfl⟩ | ⟨-, rfl⟩⟩ := hostAct_cases h
  · exact (writeReg_frame ..).1
  · exact (readReg_frame ..).1
  · rfl
  · rfl
  · exact (readReg_frame ..).1
  · exact (readReg_frame ..).1

/-- Reset does not change the platform. -/
theorem resetEvent_plat {s t : State} (h : resetEvent s = .next t) : t.plat = s.plat := by
  obtain ⟨-, rfl⟩ | ⟨-, -, rfl⟩ := resetEvent_cases h <;> rfl

/-! ### The status bits (R30, R31) -/

/-- Taking an error leaves legal status bits (R201, R207). -/
theorem statusLegal_raise (e : Err) (info : Word) (s : State) : StatusLegal (raise e info s) where
  busyExcludes := by simp
  notBoth := by simp
  noErrorNoReport := by simp
  errorHasCode := by cases e <;> simp [Err.code]

/-- Completion without an error pending leaves legal status bits (R115). -/
theorem statusLegal_complete {s : State} (h : s.err = false → s.errCode = 0 ∧ s.errInfo = 0)
    (he : s.err = false) : StatusLegal (complete s) where
  busyExcludes := by simp
  notBoth := by simp [he]
  noErrorNoReport := h
  errorHasCode := by simp [he]

/-- A `STATUS` write to an idle unit keeps the status bits legal (R117). -/
theorem statusLegal_writeStatus {s : State} (h : StatusLegal s) (v : Word) (hb : s.busy = false) :
    StatusLegal (writeStatus v s) := by
  obtain ⟨-, hboth, hreport, hcode⟩ := h
  rw [writeStatus_eq]
  constructor
  · simp [hb]
  · simp_all
  · cases hv : v.getLsbD 2
    · simpa using hreport
    · simp
  · cases hv : v.getLsbD 2
    · simpa using hcode
    · simp

/-- Acceptance by an idle unit without error leaves legal status bits (R114). -/
theorem statusLegal_accept {s : State} (h : StatusLegal s) (he : s.err = false) (w : Word) :
    StatusLegal (accept w { s with done := false }) where
  busyExcludes := by simp [he]
  notBoth := by simp
  noErrorNoReport := h.noErrorNoReport
  errorHasCode := h.errorHasCode

/-! ### The invariant -/

/-- An idle state meets the invariant when its parameters, widths, status bits and data space do. -/
theorem Inv.of_idle {t : State} (hidle : t.busy = false) (hplat : legalPlatform t.plat)
    (hbase : t.base.toNat < 2 ^ t.plat.aw) (hlen : t.len.toNat < 2 ^ t.plat.lenw) (hstatus : StatusLegal t)
    (hwf : t.mem.wf) (hin : ∀ c ∈ t.mem, c.1 < 2 ^ t.plat.aw) : Inv t where
  plat := hplat
  base := hbase
  len := hlen
  status := hstatus
  latched := by simp [hidle]
  owned := by simp [streaming, hidle]
  mem := hwf
  memInside := hin

/-- The invariant does not speak of the model's own fields but `owned`. -/
theorem Inv.with_hostSide {s : State} (h : Inv s) (host : List HostAction) (sched : List Turn) (rdata : Word)
    (mdata : List Byte) (draws : Nat) :
    Inv { s with host := host, sched := sched, rdata := rdata, mdata := mdata, draws := draws } where
  plat := h.plat
  base := h.base
  len := h.len
  status := ⟨h.status.busyExcludes, h.status.notBoth, h.status.noErrorNoReport, h.status.errorHasCode⟩
  latched := h.latched
  owned := h.owned
  mem := h.mem
  memInside := h.memInside

/-- The invariant is kept by another data space in canonical form, every cell an old one or inside. -/
theorem Inv.with_mem {s : State} (h : Inv s) {m : Memory} (hwf : m.wf)
    (hin : ∀ c ∈ m, c ∈ s.mem ∨ c.1 < 2 ^ s.plat.aw) : Inv { s with mem := m } where
  plat := h.plat
  base := h.base
  len := h.len
  status := ⟨h.status.busyExcludes, h.status.notBoth, h.status.noErrorNoReport, h.status.errorHasCode⟩
  latched := h.latched
  owned := h.owned
  mem := hwf
  memInside := fun c hc => (hin c hc).elim (h.memInside c) id

/-- While idle the invariant does not speak of the record of owned buffers. -/
theorem Inv.with_owned_of_idle {s : State} (h : Inv s) (hb : s.busy = false) (o : List Region) :
    Inv { s with owned := o } :=
  .of_idle hb h.plat h.base h.len
    ⟨h.status.busyExcludes, h.status.notBoth, h.status.noErrorNoReport, h.status.errorHasCode⟩ h.mem h.memInside

/-! #### The engine -/

/-- What a command leaves of the status bits is legal (R115, R207). -/
theorem exec_statusLegal {i : Instr} {s t : State} (hs : StatusLegal s) (hb : s.busy = true)
    (h : exec i s = .next t) : StatusLegal t := by
  have he : s.err = false := (hs.busyExcludes hb).2
  cases i with
  | qr a b c d =>
    obtain ⟨-, rfl⟩ | ⟨-, rfl⟩ := execQr_cases h
    · exact statusLegal_complete hs.noErrorNoReport he
    · exact statusLegal_raise ..
  | block =>
    obtain rfl := execBlock_cases h
    exact statusLegal_complete hs.noErrorNoReport he
  | stream =>
    obtain ⟨-, rfl⟩ | ⟨-, -, ⟨-, rfl⟩ | ⟨a, -, rfl⟩⟩ := execStream_cases h
    · exact statusLegal_raise ..
    · exact statusLegal_complete hs.noErrorNoReport he
    · exact statusLegal_raise ..

/-- The pass of a `STREAM` in range leaves a canonical data space inside `[0, 2^AW)`. -/
theorem streamPass_mem_inside {s : State} (hr : s.base.toNat + s.len.toNat ≤ 2 ^ s.plat.aw) :
    ∀ c ∈ (streamPass s).mem, c ∈ s.mem ∨ c.1 < 2 ^ s.plat.aw := by
  intro c hc
  refine (mem_xorPass hc).imp_right fun ⟨_, hlt⟩ => ?_
  rw [streamBytes_length] at hlt
  omega

/-- A command keeps the invariant. -/
theorem exec_inv {i : Instr} {s t : State} (hs : Inv s) (hb : s.busy = true) (h : exec i s = .next t) : Inv t := by
  have hf := exec_frame h
  have hmem : Inv { s with mem := t.mem } := by
    obtain hm | ⟨-, hr, hm⟩ := exec_mem_cases h <;> rw [hm]
    · exact hs
    · exact hs.with_mem (xorPass_wf hs.mem _ _) (streamPass_mem_inside hr)
  refine .of_idle (exec_idle h) ?_ ?_ ?_ (exec_statusLegal hs.status hb h) hmem.mem ?_
  · rw [hf.plat]; exact hs.plat
  · rw [hf.plat, hf.base]; exact hs.base
  · rw [hf.plat, hf.len]; exact hs.len
  · rw [hf.plat]; exact hmem.memInside

/-- An engine turn keeps the invariant. -/
theorem engineTurn_inv {s t : State} (hs : Inv s) (h : engineTurn s = .next t) : Inv t := by
  obtain ⟨-, rfl⟩ | ⟨hb, ⟨i, -, hx⟩ | ⟨why, -, rfl⟩⟩ := engineTurn_cases h
  · exact hs
  · exact exec_inv hs hb hx
  · exact .of_idle rfl hs.plat hs.base hs.len (statusLegal_raise ..) hs.mem hs.memInside

/-! #### Reset -/

/-- The registers at their reset values meet the invariant, the data space being as it should. -/
theorem Inv.resetRegisters {s : State} (h : Inv s) : Inv (resetRegisters s) :=
  .of_idle rfl h.plat (by simp) (by simp) ⟨by simp, by simp, by simp, by simp⟩ h.mem h.memInside

/-- Reset as an event keeps the invariant: a `STREAM` it abandons was accepted, so its buffer is in range. -/
theorem resetEvent_inv {s t : State} (hs : Inv s) (h : resetEvent s = .next t) : Inv t := by
  obtain ⟨-, rfl⟩ | ⟨hstr, -, rfl⟩ := resetEvent_cases h
  · exact hs.resetRegisters
  · obtain ⟨hb, hd⟩ := streaming_iff.mp hstr
    obtain ⟨i, hi, -, hr⟩ := hs.latched hb
    have hrange : s.base.toNat + s.len.toNat ≤ 2 ^ s.plat.aw :=
      hr (Decoded.command.inj (hi.symm.trans hd))
    refine (hs.with_mem (mixPass_wf hs.mem _ _ _ _) fun c hc => ?_).resetRegisters
    refine (mem_mixPass hc).imp_right fun ⟨_, hlt⟩ => ?_
    rw [streamBytes_length] at hlt
    omega

/-! #### The host -/

/-- A command that passes the checks of R113 is admissible: well formed, and in range where it is a `STREAM`. -/
theorem admissible_of_admission {i : Instr} {s : State} (h : admission i s = none) :
    i.wellFormed = true ∧ (i = .stream → s.base.toNat + s.len.toNat ≤ 2 ^ s.plat.aw) := by
  cases i with
  | qr a b c d =>
    refine ⟨?_, fun hi => by cases hi⟩
    rw [← indicesDistinct_eq_wellFormed]
    by_contra hd
    simp [admission, qrError, hd] at h
  | block => exact ⟨rfl, fun hi => by cases hi⟩
  | stream =>
    refine ⟨rfl, fun _ => bufferInRange_iff.mp ?_⟩
    by_contra hr
    simp [admission, streamError, hr] at h

/-- Command issue keeps the invariant: what it latches has passed the checks (R113, R114). -/
theorem issue_inv {s : State} (hs : Inv s) (w : Word) : Inv (issue w s) := by
  obtain ⟨-, h⟩ | ⟨hb, he, ⟨e, h⟩ | ⟨i, hd, ha, h⟩⟩ := issue_cases w s <;> rw [h]
  · exact hs
  · exact .of_idle rfl hs.plat hs.base hs.len (statusLegal_raise ..) hs.mem hs.memInside
  · obtain ⟨hwf, hr⟩ := admissible_of_admission ha
    exact {
      plat := hs.plat
      base := hs.base
      len := hs.len
      status := statusLegal_accept hs.status he w
      latched := fun _ => ⟨i, hd, hwf, hr⟩
      owned := fun hstr => by
        have hstream : decode w = .command .stream := (streaming_iff.mp hstr).2
        rw [accept_owned, if_pos hstream]
        exact List.mem_cons_self
      mem := hs.mem
      memInside := hs.memInside }

/-- A write to a slot of an idle unit keeps the invariant: `BASE` and `LEN` keep their widths (R111). -/
theorem writeSlot_inv {s : State} (hs : Inv s) (hb : s.busy = false) (r : Reg) (v : Word) :
    Inv (writeSlot r v s) := by
  have hst : StatusLegal s := hs.status
  cases r with
  | cmd | errInfo | ksbw _ | reserved => exact hs
  | status =>
    have hw := statusLegal_writeStatus hst v hb
    rw [writeSlot]
    rw [writeStatus_eq] at hw ⊢
    exact .of_idle hb hs.plat hs.base hs.len hw hs.mem hs.memInside
  | base =>
    exact .of_idle hb hs.plat (keepLow_lt ..) hs.len ⟨hst.1, hst.2, hst.3, hst.4⟩ hs.mem hs.memInside
  | len =>
    exact .of_idle hb hs.plat hs.base (keepLow_lt ..) ⟨hst.1, hst.2, hst.3, hst.4⟩ hs.mem hs.memInside
  | ctr | key _ | nonce _ | is _ | ws _ =>
    exact .of_idle hb hs.plat hs.base hs.len ⟨hst.1, hst.2, hst.3, hst.4⟩ hs.mem hs.memInside

/-- While idle a write to `CMD` is command issue (R113). -/
theorem writeReg_cmd_of_idle {s : State} (v : Word) (hb : s.busy = false) : writeReg .cmd v s = issue v s := by
  rw [writeReg, if_neg (by simp [hb])]

/-- A register write keeps the invariant. -/
theorem writeReg_inv {s : State} (hs : Inv s) (r : Reg) (v : Word) : Inv (writeReg r v s) := by
  cases hb : s.busy with
  | true => rwa [writeReg_of_busy r v hb]
  | false =>
    by_cases hr : r = .cmd
    · rw [hr, writeReg_cmd_of_idle v hb]
      exact issue_inv hs v
    · rw [writeReg_of_idle v hb hr]
      exact writeSlot_inv hs hb r v

/-- A register read keeps the invariant. -/
theorem readReg_inv {s : State} (hs : Inv s) (r : Reg) : Inv (readReg r s) := by
  obtain ⟨-, -, h⟩ | ⟨-, -, h⟩ | ⟨hb, -, h⟩ := readReg_cases r s <;> rw [h]
  · exact hs.with_hostSide ..
  · exact hs.with_hostSide ..
  · exact (hs.with_owned_of_idle hb []).with_hostSide ..

/-- An action of the host keeps the invariant. -/
theorem hostAct_inv {act : HostAction} {s t : State} (hs : Inv s) (h : hostAct act s = .next t) : Inv t := by
  obtain ⟨off, v, -, -, rfl⟩ | ⟨off, -, -, rfl⟩ | ⟨addr, bytes, -, hmay, rfl⟩ | ⟨addr, count, -, -, rfl⟩ |
    ⟨-, ⟨-, rfl⟩ | ⟨-, rfl⟩⟩ := hostAct_cases h
  · exact writeReg_inv hs _ v
  · exact readReg_inv hs _
  · obtain ⟨hin, -, -⟩ := hostMayTouch_none hmay
    refine hs.with_mem (writeBytes_wf hs.mem _ _) fun c hc => (mem_writeBytes hc).imp_right fun ⟨_, hlt⟩ => ?_
    simp only at hin
    omega
  · exact hs.with_hostSide ..
  · exact (readReg_inv hs _).with_hostSide ..
  · exact readReg_inv hs _

/-- Every step keeps the invariant, whoever moves. -/
theorem step_inv {s t : State} (hs : Inv s) (h : step s = .next t) : Inv t := by
  obtain ⟨u, -, ⟨hu, rfl, -, -⟩ | ⟨act, -, hu, -, hact⟩ | ⟨hu, heng, -⟩ | ⟨hu, hres, -⟩⟩ := step_cases h
  · rw [hu]; exact hs.with_hostSide ..
  · exact hostAct_inv (by rw [hu]; exact hs.with_hostSide ..) hact
  · exact engineTurn_inv (by rw [hu]; exact hs.with_hostSide ..) heng
  · exact resetEvent_inv (by rw [hu]; exact hs.with_hostSide ..) hres

/-- The state after reset, over any legal platform and any canonical data space inside it, meets the invariant. -/
theorem inv_launch {p : Platform} {m : Memory} (hp : legalPlatform p) (hm : m.wf)
    (hin : ∀ x ∈ m, x.1 < 2 ^ p.aw) (host : List HostAction) (sched : List Turn) :
    Inv { State.reset with plat := p, mem := m, host := host, sched := sched } :=
  .of_idle rfl hp (Nat.two_pow_pos _) (Nat.two_pow_pos _) ⟨by simp [State.reset], by simp [State.reset],
    by simp [State.reset], by simp [State.reset]⟩ hm hin

/-- Every reachable state meets the invariant. -/
theorem reachable_inv {s : State} (h : Reachable s) : Inv s := by
  induction h with
  | launch p m host sched hp hm hin => exact inv_launch hp hm hin host sched
  | step _ hstep ih => exact step_inv ih hstep

end Sys2Proof.Machine

namespace Sys2Proof

open Machine

/-- Settles O52, by cases on who moves. -/
theorem everyStepKeepsTheInvariant : Obligations.EveryStepKeepsTheInvariant := fun _ _ => step_inv

/-- Settles O51: the standard platform is legal, and reset lists no cell. -/
theorem resetMeetsTheInvariant : Obligations.ResetMeetsTheInvariant :=
  inv_launch (p := Platform.standard) (m := []) ⟨by decide, by decide, by decide, by decide⟩ (by decide) (by decide)
    [] []

/-- Settles O53: the invariant holds in every reachable state. -/
theorem statusIsLegalInEveryReachableState : Obligations.StatusIsLegalInEveryReachableState := fun _ h =>
  have hs : StatusLegal _ := (reachable_inv h).status
  ⟨hs.busyExcludes, hs.notBoth, fun he => (hs.noErrorNoReport he).1⟩

/-- Settles O54, by cases on who moves. -/
theorem noStepChangesThePlatform : Obligations.NoStepChangesThePlatform := by
  intro s t h
  obtain ⟨u, -, ⟨hu, rfl, -, -⟩ | ⟨act, -, hu, -, hact⟩ | ⟨hu, heng, -⟩ | ⟨hu, hres, -⟩⟩ := step_cases h
  · rw [hu]
  · rw [hostAct_plat hact, hu]
  · rw [(engineTurn_frame heng).plat, hu]
  · rw [resetEvent_plat hres, hu]

end Sys2Proof

/-! ### The register map (R33) -/

namespace Sys2Proof.Machine

/-- The slots of the map between its named registers, and those after the last of them, are reserved (R33). -/
theorem registerMap_reserved : ∀ n : Fin 128, n.val = 3 ∨ n.val = 7 ∨ (19 ≤ n.val ∧ n.val ≤ 31) ∨ 80 ≤ n.val →
    registerMap.getD n.val .reserved = .reserved := by decide

/-- Every named slot is found at its word-aligned offset (R33). -/
theorem regAt_offset {r : Reg} (hr : r ≠ .reserved) : regAt r.offset = r ∧ r.offset.toNat % 4 = 0 := by
  cases r with
  | reserved => exact absurd rfl hr
  | cmd | status | errInfo | base | len | ctr => decide
  | key j => revert j; decide
  | nonce j => revert j; decide
  | is i => revert i; decide
  | ws i => revert i; decide
  | ksbw j => revert j; decide

end Sys2Proof.Machine

namespace Sys2Proof

open Machine

/-- Settles O6: the named slots by `regAt_offset`, the reserved ranges by their slot numbers. -/
theorem registerMapPlacesEverySlot : Obligations.RegisterMapPlacesEverySlot := by
  refine ⟨by decide, fun j => (regAt_offset (r := .key j) nofun).1, fun j => (regAt_offset (r := .nonce j) nofun).1,
    fun i => ⟨(regAt_offset (r := .is i) nofun).1, (regAt_offset (r := .ws i) nofun).1,
      (regAt_offset (r := .ksbw i) nofun).1⟩, fun off _ hoff => ?reserved, fun r hr => regAt_offset hr⟩
  case reserved => exact registerMap_reserved ⟨off.toNat / 4, by omega⟩ (by simp only; omega)

end Sys2Proof

/-! ### Rotation and the little-endian conversions (R9, R62, R131) -/

namespace Sys2Proof.Machine

/-- A rotation takes bit `i` to bit `(i + k) mod 32` (R131). -/
theorem rotl32_getLsbD (x : Word) {k i : Nat} (hk : k < 32) (hi : i < 32) :
    (rotl32 x k).getLsbD ((i + k) % 32) = x.getLsbD i := by
  rw [rotl32, BitVec.getLsbD_rotateLeft, Nat.mod_eq_of_lt hk]
  by_cases hwrap : i + k < 32
  · have hstays : ¬ i + k < k := by omega
    simp [Nat.mod_eq_of_lt hwrap, hwrap, hstays]
  · have hmod : (i + k) % 32 = i + k - 32 := by omega
    have hround : i + k - 32 < k := by omega
    have hbit : 32 - k + (i + k - 32) = i := by omega
    simp [hmod, hround, hbit]

/-- A rotation on natural numbers: the bits that stay below `2^32`, and the `k` bits that come round (R131). -/
theorem rotl32_toNat (x : Word) {k : Nat} (hk : k < 32) :
    (rotl32 x k).toNat = (x.toNat * 2 ^ k) % 2 ^ 32 + x.toNat / 2 ^ (32 - k) := by
  have hsplit : (2 : Nat) ^ 32 = 2 ^ (32 - k) * 2 ^ k := by rw [← Nat.pow_add]; congr 1; omega
  have hround : x.toNat / 2 ^ (32 - k) < 2 ^ k :=
    Nat.div_lt_of_lt_mul (by rw [← hsplit]; exact x.isLt)
  rw [rotl32, BitVec.toNat_rotateLeft, Nat.mod_eq_of_lt hk, Nat.shiftLeft_eq, Nat.shiftRight_eq_div_pow, hsplit,
    Nat.mul_mod_mul_right, Nat.mul_comm _ (2 ^ k), Nat.two_pow_add_eq_or_of_lt hround]

/-- `word_le` on natural numbers (R9). -/
theorem wordLe_toNat (b0 b1 b2 b3 : Byte) :
    (wordLe b0 b1 b2 b3).toNat = b0.toNat + 2 ^ 8 * b1.toNat + 2 ^ 16 * b2.toNat + 2 ^ 24 * b3.toNat := by
  rw [wordLe, BitVec.toNat_ofNat]
  omega

/-- The word of its four bytes is the word (R9). -/
theorem wordLe_byteOf (w : Word) : wordLe (byteOf w 0) (byteOf w 1) (byteOf w 2) (byteOf w 3) = w := by
  apply BitVec.eq_of_toNat_eq
  simp only [wordLe_toNat, byteOf_toNat, Nat.reduceMul, Nat.reducePow]
  omega

/-- The bytes of a word of four bytes are the four bytes (R9). -/
theorem le32_wordLe (b0 b1 b2 b3 : Byte) : le32 (wordLe b0 b1 b2 b3) = [b0, b1, b2, b3] := by
  simp only [le32, List.cons.injEq, ← BitVec.toNat_inj, byteOf_toNat, wordLe_toNat, Nat.reduceMul, Nat.reducePow,
    and_true]
  omega

end Sys2Proof.Machine

namespace Sys2Proof

open Machine

/-- Settles O8: the rotation bit by bit and as a sum. -/
theorem rotationMovesBitsLeft : Obligations.RotationMovesBitsLeft := fun x _ _ hk =>
  ⟨fun _ hi => rotl32_getLsbD x hk hi, rotl32_toNat x hk⟩

/-- Settles O9: the bytes by their values, and the two inverses. -/
theorem littleEndianConversionsInvert : Obligations.LittleEndianConversionsInvert := by
  refine ⟨fun w => ?_, wordLe_byteOf, le32_wordLe⟩
  simp [le32, byteOf_toNat]

end Sys2Proof

/-! ### The quarter round as a map on words and on vectors (R133, R136, R138) -/

namespace Sys2Proof.Machine

/-- A rotation loses no bit. -/
theorem rotl32_injective {k : Nat} (hk : k < 32) {x y : Word} (h : rotl32 x k = rotl32 y k) : x = y := by
  apply BitVec.eq_of_getLsbD_eq
  intro i hi
  rw [← rotl32_getLsbD x hk hi, h, rotl32_getLsbD y hk hi]

theorem add32_right_cancel {x y z : Word} (h : add32 x z = add32 y z) : x = y := (BitVec.add_left_inj z).mp h

theorem xor32_right_cancel {x y z : Word} (h : xor32 x z = xor32 y z) : x = y := (BitVec.xor_left_inj z).mp h

/-- The first two of the four lines of R133, with their rotation distances; the last two have the same form. -/
def halfQuarterRound (k l : Nat) (x : Word × Word × Word × Word) : Word × Word × Word × Word :=
  let a := add32 x.1 x.2.1
  let d := rotl32 (xor32 x.2.2.2 a) k
  let c := add32 x.2.2.1 d
  (a, rotl32 (xor32 x.2.1 c) l, c, d)

/-- `qr4` is two half rounds (R133). -/
theorem qr4_eq_halves (x : Word × Word × Word × Word) :
    qr4 x.1 x.2.1 x.2.2.1 x.2.2.2 = halfQuarterRound 8 7 (halfQuarterRound 16 12 x) := rfl

/-- A half round can be undone: the new `a` gives back `d`, the new `d` gives back `c`, the new `c` gives back `b`,
and that `a` (R138 b). -/
theorem halfQuarterRound_injective {k l : Nat} (hk : k < 32) (hl : l < 32) :
    Function.Injective (halfQuarterRound k l) := by
  rintro ⟨xa, xb, xc, xd⟩ ⟨ya, yb, yc, yd⟩ h
  simp only [halfQuarterRound, Prod.mk.injEq] at h
  obtain ⟨ha, hb, hc, hd⟩ := h
  have hd' : xd = yd := by
    rw [ha] at hd
    exact xor32_right_cancel (rotl32_injective hk hd)
  have hc' : xc = yc := by
    rw [hd] at hc
    exact add32_right_cancel hc
  have hb' : xb = yb := by
    rw [hc] at hb
    exact xor32_right_cancel (rotl32_injective hl hb)
  have ha' : xa = ya := by
    rw [hb'] at ha
    exact add32_right_cancel ha
  rw [ha', hb', hc', hd']

/-- Word `i` after a quarter round depends on the four named words and word `i` only (R136). -/
theorem qrf_congr {S T : Vec16} {a b c d i : Idx} (ha : S[a] = T[a]) (hb : S[b] = T[b]) (hc : S[c] = T[c])
    (hd : S[d] = T[d]) (hi : S[i] = T[i]) : (qrf S a b c d)[i] = (qrf T a b c d)[i] := by
  rw [qrf_get, qrf_get, ha, hb, hc, hd, hi]

/-- A quarter round leaves every word outside its list of indices. -/
theorem qrf_of_not_mem {S : Vec16} {a b c d i : Idx} (h : i ∉ [a, b, c, d]) : (qrf S a b c d)[i] = S[i] := by
  simp only [List.mem_cons, List.not_mem_nil, or_false, not_or] at h
  obtain ⟨ha, hb, hc, hd⟩ := h
  exact qrf_other ha hb hc hd

/-- Quarter rounds on disjoint index lists commute: word `i` is written by one of the two at most, and neither sees
what the other wrote (R138 d). -/
theorem qrf_comm {S : Vec16} {a b c d a' b' c' d' : Idx}
    (h : ∀ i, i ∈ [a, b, c, d] → i ∉ [a', b', c', d']) :
    qrf (qrf S a b c d) a' b' c' d' = qrf (qrf S a' b' c' d') a b c d := by
  have hkept : ∀ i ∈ [a, b, c, d], (qrf S a' b' c' d')[i] = S[i] := fun i hi => qrf_of_not_mem (h i hi)
  have hkept' : ∀ i ∈ [a', b', c', d'], (qrf S a b c d)[i] = S[i] := fun i hi =>
    qrf_of_not_mem fun hi' => h i hi' hi
  apply vec_ext
  intro i
  by_cases hi : i ∈ [a, b, c, d]
  · rw [qrf_of_not_mem (h i hi)]
    exact (qrf_congr (hkept a (by simp)) (hkept b (by simp)) (hkept c (by simp)) (hkept d (by simp))
      (hkept i hi)).symm
  · rw [qrf_of_not_mem (S := qrf S a' b' c' d') hi]
    exact qrf_congr (hkept' a' (by simp)) (hkept' b' (by simp)) (hkept' c' (by simp)) (hkept' d' (by simp))
      (qrf_of_not_mem hi)

/-- `QR` with repeated indices ends with `BAD_INDEX` (R137; log entry 4). -/
theorem exec_qr_of_repeated {a b c d : Idx} (s : State) (h : indicesDistinct a b c d = false) :
    exec (.qr a b c d) s = .next (abort .badIndex (encode (.qr a b c d)) s) := by
  simp [exec, execQr, qrError, h]

end Sys2Proof.Machine

namespace Sys2Proof

open Machine

/-- Settles O10: each half round is injective, and the 4-tuples of words are finitely many. -/
theorem quarterRoundIsBijective : Obligations.QuarterRoundIsBijective := by
  refine Finite.injective_iff_bijective.mp fun x y h => ?_
  rw [qr4_eq_halves, qr4_eq_halves] at h
  exact halfQuarterRound_injective (by decide) (by decide) (halfQuarterRound_injective (by decide) (by decide) h)

/-- Settles O11: the four named words are `qr4` of the four old ones. -/
theorem quarterRoundTouchesFourSlots : Obligations.QuarterRoundTouchesFourSlots := by
  intro S T a b c d a' b' c' d' h h'
  refine ⟨fun i ha hb hc hd => qrf_other ha hb hc hd, fun ha hb hc hd => ?_⟩
  obtain ⟨hSa, hSb, hSc, hSd⟩ := qrf_named (S := S) h
  obtain ⟨hTa, hTb, hTc, hTd⟩ := qrf_named (S := T) h'
  rw [hSa, hSb, hSc, hSd, hTa, hTb, hTc, hTd, ha, hb, hc, hd]
  exact ⟨rfl, rfl, rfl, rfl⟩

/-- Settles O12, by `qrf_comm`. -/
theorem disjointQuarterRoundsCommute : Obligations.DisjointQuarterRoundsCommute :=
  fun _ _ _ _ _ _ _ _ _ _ _ h => qrf_comm h

/-- Settles O14: the check of R113 step 3b at issue, and the same check of the engine. -/
theorem qrWithRepeatedIndicesIsRejected : Obligations.QrWithRepeatedIndicesIsRejected := by
  intro s a b c d h
  have hq : indicesDistinct a b c d = false := by
    rw [Bool.eq_false_iff, ne_eq, indicesDistinct_iff]
    tauto
  refine ⟨fun hb he => ?issue, ⟨_, exec_qr_of_repeated s hq, rfl, rfl, rfl, rfl, rfl, rfl⟩⟩
  case issue =>
    exact step_write_cmd_of_rejected hb he (decode_encode _) (admission_qr_of_repeated s hq)

end Sys2Proof

/-! ### Rounds and the block function (R151 to R159, R162) -/

namespace Sys2Proof.Machine

/-- The indices of a quadruple. -/
def Quad.indices (q : Quad) : List Idx := [q.1, q.2.1, q.2.2.1, q.2.2.2]

/-- Quadruples of a round share no index (R150). -/
theorem columnQuads_disjoint : ∀ q ∈ columnQuads, ∀ r ∈ columnQuads, q = r ∨ ∀ i ∈ q.indices, i ∉ r.indices := by
  decide

theorem diagonalQuads_disjoint :
    ∀ q ∈ diagonalQuads, ∀ r ∈ diagonalQuads, q = r ∨ ∀ i ∈ q.indices, i ∉ r.indices := by
  decide

/-- Each of the eight quadruples has distinct indices (R150). -/
theorem quads_distinct :
    (columnQuads ++ diagonalQuads).all (fun q => indicesDistinct q.1 q.2.1 q.2.2.1 q.2.2.2) = true := by decide

/-- Quarter rounds on quadruples that are pairwise equal or disjoint can be done in any order (R155). -/
theorem foldl_qrfQuad_of_perm {ps qs : List Quad}
    (hdisj : ∀ q ∈ qs, ∀ r ∈ qs, q = r ∨ ∀ i ∈ q.indices, i ∉ r.indices) (h : ps.Perm qs) (W : Vec16) :
    ps.foldl qrfQuad W = qs.foldl qrfQuad W := by
  refine (h.symm.foldl_eq' (fun q hq r hr Z => ?_) W).symm
  obtain rfl | hqr := hdisj q hq r hr
  · rfl
  · exact qrf_comm hqr

/-- The command of a quadruple. -/
def Quad.command (q : Quad) : Instr := .qr q.1 q.2.1 q.2.2.1 q.2.2.2

/-- `QR` commands with distinct indices all complete, and leave in `WS` their quarter rounds in order (R135). -/
theorem execAll_qrs {qs : List Quad} (h : ∀ q ∈ qs, indicesDistinct q.1 q.2.1 q.2.2.1 q.2.2.2 = true) (s : State) :
    ∃ t, execAll (qs.map Quad.command) s = .next t ∧ t.ws = qs.foldl qrfQuad s.ws := by
  induction qs generalizing s with
  | nil => exact ⟨s, rfl, rfl⟩
  | cons q qs ih =>
    obtain ⟨t, ht, hws⟩ := ih (fun r hr => h r (List.mem_cons_of_mem q hr))
      (complete { s with ws := qrfQuad s.ws q })
    refine ⟨t, ?_, hws⟩
    rw [List.map_cons, execAll, Quad.command, exec_qr_of_distinct s (h q List.mem_cons_self)]
    exact ht

/-- `n` times the eight quadruples, in order, are `n` double rounds (R153, R154). -/
theorem foldl_quads_eq_doubleRounds (n : Nat) (W : Vec16) :
    (List.replicate n (columnQuads ++ diagonalQuads)).flatten.foldl qrfQuad W = doubleRounds n W := by
  induction n generalizing W with
  | zero => rfl
  | succ n ih =>
    rw [List.replicate_succ, List.flatten_cons, List.foldl_append, List.foldl_append, ih, doubleRounds_succ]
    rfl

/-- A quarter round of the zero vector is the zero vector: no word of `qr4` is a constant of its own (R133). -/
theorem qrfQuad_zero (q : Quad) : qrfQuad (Vector.replicate 16 0) q = Vector.replicate 16 0 := by
  have hqr4 : qr4 0 0 0 0 = (0, 0, 0, 0) := by decide
  apply vec_ext
  intro i
  rw [qrfQuad, qrf_get]
  simp only [Fin.getElem_fin, Vector.getElem_replicate, hqr4, ite_self]

theorem foldl_qrfQuad_zero (qs : List Quad) :
    qs.foldl qrfQuad (Vector.replicate 16 0) = Vector.replicate 16 0 := by
  induction qs with
  | nil => rfl
  | cons q qs ih => rw [List.foldl_cons, qrfQuad_zero, ih]

/-- The block function of the zero vector is zero (R159). -/
theorem blockWords_zero : blockWords (Vector.replicate 16 0) = Vector.replicate 16 0 := by
  apply vec_ext
  intro i
  rw [blockWords_get, twentyRounds, ← foldl_quads_eq_doubleRounds, foldl_qrfQuad_zero]
  simp

theorem serialise_zero : serialise (Vector.replicate 16 0) = Vector.replicate 64 0 := by
  apply Vector.ext
  intro n hn
  rw [serialise_get _ n hn]
  simp [byteOf]

/-- Word `j` of the serialisation, read little-endian, is word `j` (R29, R157). -/
theorem ksbWord_serialise (Z : Vec16) (j : Idx) : ksbWord (serialise Z) j = Z[j] := by
  have hbyte := serialise_byte Z j
  rw [ksbWord]
  conv_rhs => rw [← wordLe_byteOf Z[j]]
  exact congr (congr (congr (congrArg wordLe (hbyte 0)) (hbyte 1)) (hbyte 2)) (hbyte 3)

end Sys2Proof.Machine

namespace Sys2Proof

open Machine

/-- Settles O16: the four quadruples of a round are disjoint. -/
theorem roundIsIndependentOfOrder : Obligations.RoundIsIndependentOfOrder := fun W _ =>
  ⟨fun h => foldl_qrfQuad_of_perm columnQuads_disjoint h W,
    fun h => foldl_qrfQuad_of_perm diagonalQuads_disjoint h W⟩

/-- Settles O17: the two orders differ on the unit vector. -/
theorem columnsComeBeforeDiagonals : Obligations.ColumnsComeBeforeDiagonals :=
  ⟨fun _ => rfl, #v[1, 0, 0, 0, 0, 0, 0, 0, 0, 0, 0, 0, 0, 0, 0, 0], fun h =>
    absurd (congrArg (fun W : Vec16 => W[1]) h) (by decide)⟩

/-- Settles O19: the eighty commands leave the twenty rounds of `WS`, to which `BLOCK` adds `IS`. -/
theorem blockIsEightyQuarterRoundCommands : Obligations.BlockIsEightyQuarterRoundCommands := by
  intro s hws
  have hdistinct : ∀ q ∈ (List.replicate 10 (columnQuads ++ diagonalQuads)).flatten,
      indicesDistinct q.1 q.2.1 q.2.2.1 q.2.2.2 = true := by
    intro q hq
    obtain ⟨l, hl, hql⟩ := List.mem_flatten.mp hq
    exact List.all_eq_true.mp quads_distinct q (List.eq_of_mem_replicate hl ▸ hql)
  obtain ⟨t, ht, htws⟩ := execAll_qrs hdistinct s
  refine ⟨t, _, ht, exec_block s, fun i => ?_⟩
  rw [htws, foldl_quads_eq_doubleRounds, hws]
  exact blockWords_get s.is i

/-- Settles O20: zero words are fixed by the rounds, the feed-forward and the serialisation. -/
theorem blockOfZeroIsZero : Obligations.BlockOfZeroIsZero := by
  intro s his
  refine ⟨_, exec_block s, ?_, ?_⟩
  · rw [complete_ws, his, blockWords_zero]
  · rw [complete_ksb, his, blockWords_zero, serialise_zero]

/-- Settles O21: `BLOCK` leaves in `KSB` the serialisation of the `WS` it leaves. -/
theorem keystreamWindowEqualsWorkingState : Obligations.KeystreamWindowEqualsWorkingState := by
  intro s t h j
  obtain rfl := execBlock_cases h
  exact ksbWord_serialise (blockWords s.is) j

/-- Settles O22: the frame of a command, and what each of the two adds to it. -/
theorem qrAndBlockLeaveTheRestAlone : Obligations.QrAndBlockLeaveTheRestAlone := by
  intro s t i hi h
  have hf := exec_frame h
  have hmem : t.mem = s.mem := (exec_mem_cases h).resolve_right fun hstream => hi hstream.1
  have hrest : (i ≠ .block → t.ksb = s.ksb) ∧ t.is = s.is ∧
      (i.wellFormed = true → t.err = s.err ∧ t.errCode = s.errCode ∧ t.errInfo = s.errInfo) := by
    cases i with
    | qr a b c d =>
      obtain ⟨-, rfl⟩ | ⟨hq, rfl⟩ := execQr_cases h
      · exact ⟨fun _ => rfl, rfl, fun _ => ⟨rfl, rfl, rfl⟩⟩
      · rw [indicesDistinct_eq_wellFormed] at hq
        exact ⟨fun _ => rfl, rfl, fun hw => absurd hw (by simp [hq])⟩
    | block =>
      obtain rfl := execBlock_cases h
      exact ⟨fun hne => absurd rfl hne, by simp, by simp⟩
    | stream => exact absurd rfl hi
  obtain ⟨hksb, his, herr⟩ := hrest
  exact ⟨hksb, his, hf.key, hf.nonce, hf.ctr, hf.base, hf.len, hf.plat, hf.host, hf.sched, hf.rdata, hf.mdata,
    hf.owned, fun a => by rw [hmem], herr⟩

end Sys2Proof

/-! ### A `STREAM` that completes (R173 to R177, R180, R181) -/

namespace Sys2Proof.Machine

/-- A buffer away from the registers and over ordinary memory is not refused (R66, R73). -/
theorem StreamReady.not_refused {s : State} (h : StreamReady s) : bufferRefusal s.plat (buffer s) = none :=
  bufferRefusal_eq_none.mpr ⟨h.awayFromRegisters, h.ordinary⟩

/-- Where every byte of the buffer answers, the pass reaches the end: each byte read, then written, in ascending
order, and xored with its keystream byte (R69, R175). -/
theorem streamPass_of_ready {s : State} (h : StreamReady s) :
    (streamPass s).failed = none ∧
    (streamPass s).accesses =
      ((List.range s.len.toNat).flatMap fun i => [.read (s.base.toNat + i), .write (s.base.toNat + i)]) ∧
    (∀ i, i < s.len.toNat → (streamPass s).mem.read (s.base.toNat + i) =
      s.mem.read (s.base.toNat + i) ^^^ keystreamByte s i) ∧
    (∀ a, a < s.base.toNat ∨ s.base.toNat + s.len.toNat ≤ a → (streamPass s).mem.read a = s.mem.read a) := by
  have hlen := streamBytes_length s
  obtain ⟨hread, haccesses, hfailed, hother⟩ :=
    xorPass_spec (p := s.plat) h.canonical s.base.toNat (streamBytes s) s.len.toNat hlen.ge h.answers (.inl hlen.symm)
  refine ⟨?_, haccesses, fun i hi => ?_, hother⟩
  · rw [streamPass, hfailed, if_pos hlen.symm]
  · rw [streamPass, hread i hi, streamBytes_get, xor8]

/-- What a `STREAM` that completes leaves: the memory of its pass, the working registers zeroed (R177). -/
def streamResult (s : State) : State := complete (zeroWorking { s with mem := (streamPass s).mem })

theorem streamResult_mem (s : State) : (streamResult s).mem = (streamPass s).mem := rfl

/-- A `STREAM` that can run completes (R177). -/
theorem exec_stream_of_ready {s : State} (h : StreamReady s) : exec .stream s = .next (streamResult s) :=
  exec_stream_of_pass h.inRange h.not_refused (streamPass_of_ready h).1

/-- The pass of a `STREAM` that can run, at any address: xored with the keystream inside the buffer, the old byte
outside (R175). -/
theorem streamPass_read {s : State} (h : StreamReady s) (a : Nat) :
    (streamPass s).mem.read a =
      if s.base.toNat ≤ a ∧ a < s.base.toNat + s.len.toNat then
        s.mem.read a ^^^ keystreamByte s (a - s.base.toNat)
      else s.mem.read a := by
  obtain ⟨-, -, hin, hout⟩ := streamPass_of_ready h
  split
  · next ha =>
    have := hin (a - s.base.toNat) (by omega)
    rwa [Nat.add_sub_cancel' ha.1] at this
  · next ha => exact hout a (by omega)

/-- The pass keeps the canonical form. -/
theorem streamPass_wf {s : State} (h : s.mem.wf) : (streamPass s).mem.wf := xorPass_wf h _ _

/-- A `STREAM` over a part of a buffer that can run can run. -/
theorem StreamReady.of_sub {s t : State} (h : StreamReady s) (hwf : t.mem.wf) (hplat : t.plat = s.plat)
    (hrange : t.base.toNat + t.len.toNat ≤ 2 ^ s.plat.aw)
    (hsub : t.len.toNat ≠ 0 → s.base.toNat ≤ t.base.toNat ∧
      t.base.toNat + t.len.toNat ≤ s.base.toNat + s.len.toNat) : StreamReady t where
  canonical := hwf
  inRange := by rwa [hplat]
  answers := fun i hi => by
    obtain ⟨hlo, hhi⟩ := hsub (by omega)
    have := h.answers (t.base.toNat + i - s.base.toNat) (by omega)
    rwa [Nat.add_sub_cancel' (by omega), ← hplat] at this
  ordinary := by rw [hplat]; exact Platform.touchesDevice_mono h.ordinary hsub
  awayFromRegisters := by rw [hplat]; exact Platform.touchesRegisters_mono h.awayFromRegisters hsub

/-- The counter of the block that byte `64 * k + i` of a keystream lies in (R173, R174). -/
theorem counter_advance (c : Word) (k i : Nat) :
    c + BitVec.ofNat 32 ((64 * k + i) / 64) = c + BitVec.ofNat 32 k + BitVec.ofNat 32 (i / 64) := by
  have hdiv : (64 * k + i) / 64 = k + i / 64 := by omega
  rw [hdiv, BitVec.ofNat_add, BitVec.add_assoc]

/-- With the counter advanced by `k`, the keystream is that from byte `64 * k` on (R173, R181). -/
theorem keystreamByte_advance {s t : State} (k : Nat) (hkey : t.key = s.key) (hnonce : t.nonce = s.nonce)
    (hctr : t.ctr = s.ctr + BitVec.ofNat 32 k) (i : Nat) : keystreamByte t i = keystreamByte s (64 * k + i) := by
  have hmod : (64 * k + i) % 64 = i % 64 := by omega
  simp only [keystreamByte, hkey, hnonce, hctr, counter_advance, hmod]

/-- Byte `64 * j + k` of the keystream is byte `k` of the block of counter `(CTR + j) mod 2^32` (R174). -/
theorem keystreamByte_of_block (s : State) (j : Nat) {k : Nat} (hk : k < 64) :
    keystreamByte s (64 * j + k) =
      (blockBytes (assemble s.key (BitVec.ofNat 32 ((s.ctr.toNat + j) % 2 ^ 32)) s.nonce))[k] := by
  have hctr : s.ctr + BitVec.ofNat 32 ((64 * j + k) / 64) = BitVec.ofNat 32 ((s.ctr.toNat + j) % 2 ^ 32) := by
    apply BitVec.eq_of_toNat_eq
    rw [BitVec.toNat_add, BitVec.toNat_ofNat, BitVec.toNat_ofNat]
    omega
  have hmod : (64 * j + k) % 64 = k := by omega
  simp only [keystreamByte, hctr, hmod]

/-- The operands of the two parts of a message cut at `64 * k`, on natural numbers. `BASE` wraps only where the buffer
ends at `2^32` and the second part is empty (R181). -/
theorem split_operands {s : State} {k : Nat} (haw : s.plat.aw ≤ 32)
    (hr : s.base.toNat + s.len.toNat ≤ 2 ^ s.plat.aw) (hk : 64 * k ≤ s.len.toNat) :
    (BitVec.ofNat 32 (64 * k)).toNat = 64 * k ∧
    (s.len - BitVec.ofNat 32 (64 * k)).toNat = s.len.toNat - 64 * k ∧
    ((s.len - BitVec.ofNat 32 (64 * k)).toNat ≠ 0 →
      (s.base + BitVec.ofNat 32 (64 * k)).toNat = s.base.toNat + 64 * k) ∧
    (s.base + BitVec.ofNat 32 (64 * k)).toNat ≤ s.base.toNat + 64 * k := by
  have hspace : 2 ^ s.plat.aw ≤ 2 ^ 32 := Nat.pow_le_pow_right (by decide) haw
  have hcut : (BitVec.ofNat 32 (64 * k)).toNat = 64 * k := by
    rw [BitVec.toNat_ofNat]
    omega
  have hlen : (s.len - BitVec.ofNat 32 (64 * k)).toNat = s.len.toNat - 64 * k := by
    rw [BitVec.toNat_sub_of_le (by rwa [BitVec.le_def, hcut]), hcut]
  refine ⟨hcut, hlen, fun hne => ?_, ?_⟩
  · rw [BitVec.toNat_add, hcut]
    omega
  · rw [BitVec.toNat_add, hcut]
    exact Nat.mod_le _ _

/-- The state in which a `STREAM` transforms the first `64 * k` bytes of the buffer of `s` (R181). -/
def messageHead (s : State) (k : Nat) : State := { s with len := BitVec.ofNat 32 (64 * k) }

/-- The state `t` with the operands for the rest of the buffer of `s` (R181). -/
def messageTail (s t : State) (k : Nat) : State :=
  { t with
    base := s.base + BitVec.ofNat 32 (64 * k)
    len := s.len - BitVec.ofNat 32 (64 * k)
    ctr := s.ctr + BitVec.ofNat 32 k }

theorem messageHead_ready {s : State} {k : Nat} (haw : s.plat.aw ≤ 32) (h : StreamReady s)
    (hk : 64 * k ≤ s.len.toNat) : StreamReady (messageHead s k) := by
  obtain ⟨hlen, -, -, -⟩ := split_operands haw h.inRange hk
  have hrange := h.inRange
  refine h.of_sub h.canonical rfl ?_ fun _ => ⟨le_rfl, ?_⟩ <;> simp only [messageHead] <;> omega

theorem messageTail_ready {s t : State} {k : Nat} (haw : s.plat.aw ≤ 32) (h : StreamReady s)
    (hk : 64 * k ≤ s.len.toNat) (hwf : t.mem.wf) (hplat : t.plat = s.plat) : StreamReady (messageTail s t k) := by
  obtain ⟨-, hlen, hbase, hbaseLe⟩ := split_operands haw h.inRange hk
  have hrange := h.inRange
  refine h.of_sub hwf hplat ?_ fun hne => ?_
  · simp only [messageTail]
    omega
  · have hstart := hbase hne
    simp only [messageTail]
    omega

/-- The pass over the rest of a buffer, after the pass over its first `64 * k` bytes, leaves what one pass over the
whole leaves (R181). -/
theorem streamPass_messageTail_mem {s t : State} {k : Nat} (haw : s.plat.aw ≤ 32) (h : StreamReady s)
    (hk : 64 * k ≤ s.len.toNat) (hmem : t.mem = (streamPass (messageHead s k)).mem) (hplat : t.plat = s.plat)
    (hkey : t.key = s.key) (hnonce : t.nonce = s.nonce) :
    (streamPass (messageTail s t k)).mem = (streamPass s).mem := by
  obtain ⟨hlenHead, hlenTail, hbaseTail, -⟩ := split_operands haw h.inRange hk
  have hhead := messageHead_ready haw h hk
  have hwf : t.mem.wf := by rw [hmem]; exact streamPass_wf hhead.canonical
  have htail := messageTail_ready haw h hk hwf hplat
  refine memory_ext (streamPass_wf htail.canonical) (streamPass_wf h.canonical) fun a => ?_
  have hreadHead : t.mem.read a =
      if s.base.toNat ≤ a ∧ a < s.base.toNat + 64 * k then s.mem.read a ^^^ keystreamByte s (a - s.base.toNat)
      else s.mem.read a := by
    rw [hmem, ← hlenHead]
    exact streamPass_read hhead a
  have hreadTail := streamPass_read htail a
  simp only [keystreamByte_advance (t := messageTail s t k) k hkey hnonce rfl] at hreadTail
  rw [hreadTail, streamPass_read h]
  rw [hlenTail] at hbaseTail
  simp only [messageTail, hlenTail, hreadHead]
  by_cases hzero : s.len.toNat - 64 * k = 0
  · have hwhole : s.len.toNat = 64 * k := by omega
    rw [if_neg (by omega), hwhole]
  rw [hbaseTail hzero]
  by_cases hlow : s.base.toNat ≤ a ∧ a < s.base.toNat + 64 * k
  · rw [if_neg (by omega), if_pos hlow, if_pos (by omega)]
  by_cases hhigh : s.base.toNat + 64 * k ≤ a ∧ a < s.base.toNat + 64 * k + (s.len.toNat - 64 * k)
  · have hindex : 64 * k + (a - (s.base.toNat + 64 * k)) = a - s.base.toNat := by omega
    rw [if_pos hhigh, if_neg hlow, if_pos (by omega), hindex]
  · rw [if_neg hhigh, if_neg hlow, if_neg (by omega)]

end Sys2Proof.Machine

namespace Sys2Proof

open Machine

/-- Settles O23: `STREAM` completes on what its pass leaves. -/
theorem streamXorsTheKeystream : Obligations.StreamXorsTheKeystream := by
  intro s h
  obtain ⟨-, -, hin, hout⟩ := streamPass_of_ready h
  refine ⟨_, exec_stream_of_ready h, hin, hout, ?_⟩
  simp [streamResult]

/-- Settles O25: the byte a `STREAM` xors in is the keystream byte, whose block has the counter mod `2^32`. -/
theorem counterWrapsSilently : Obligations.CounterWrapsSilently := by
  intro s h
  obtain ⟨-, -, hin, -⟩ := streamPass_of_ready h
  refine ⟨_, exec_stream_of_ready h, rfl, rfl, rfl, rfl, fun j k hk hjk => ?_⟩
  have hbyte := hin (64 * j + k) hjk
  rw [keystreamByte_of_block s j hk] at hbyte
  rw [streamResult_mem, hbyte, BitVec.xor_comm, ← BitVec.xor_assoc, BitVec.xor_self, BitVec.zero_xor]
  simp [hk]

/-- Settles O28: the second pass xors the same keystream into the same bytes. -/
theorem streamTwiceRestoresTheBuffer : Obligations.StreamTwiceRestoresTheBuffer := by
  intro s h
  have hwf := streamPass_wf h.canonical
  have hagain : StreamReady (streamResult s) := h.of_sub hwf rfl h.inRange fun _ => ⟨le_rfl, le_rfl⟩
  refine ⟨_, _, exec_stream_of_ready h, exec_stream_of_ready hagain,
    memory_ext (streamPass_wf hwf) h.canonical fun a => ?_⟩
  have hsecond : (streamPass (streamResult s)).mem.read a =
      if s.base.toNat ≤ a ∧ a < s.base.toNat + s.len.toNat then
        (streamPass s).mem.read a ^^^ keystreamByte s (a - s.base.toNat)
      else (streamPass s).mem.read a := streamPass_read hagain a
  rw [streamResult_mem, hsecond, streamPass_read h a]
  split
  · rw [BitVec.xor_assoc, BitVec.xor_self, BitVec.xor_zero]
  · rfl

/-- Settles O29: the two buffers are parts of the one, and the second starts at keystream byte `64 * k`. -/
theorem streamSplitsAtBlockBoundaries : Obligations.StreamSplitsAtBlockBoundaries := by
  intro s k haw h hk
  have hhead := messageHead_ready haw h hk
  have htail : StreamReady (messageTail s (streamResult (messageHead s k)) k) :=
    messageTail_ready haw h hk (streamPass_wf hhead.canonical) rfl
  exact ⟨_, _, _, exec_stream_of_ready h, exec_stream_of_ready hhead, exec_stream_of_ready htail,
    streamPass_messageTail_mem haw h hk rfl rfl rfl rfl⟩

/-- Settles O30, by `streamPass_of_ready`. -/
theorem streamAccessesEachByteOnceInOrder : Obligations.StreamAccessesEachByteOnceInOrder := fun _ h =>
  (streamPass_of_ready h).2.1

end Sys2Proof

/-! ### A `STREAM` that goes on or is refused (R66, R73, R177 to R179) -/

namespace Sys2Proof.Machine

/-- A `STREAM` leaves every byte outside its buffer (R60, R177). -/
theorem exec_stream_read_other {s t : State} (h : exec .stream s = .next t) {a : Nat}
    (ha : a < s.base.toNat ∨ s.base.toNat + s.len.toNat ≤ a) : t.mem.read a = s.mem.read a := by
  obtain hm | ⟨-, -, hm⟩ := exec_mem_cases h <;> rw [hm]
  exact xorPass_read_other _ _ _ _ (by rwa [streamBytes_length])

/-- A `STREAM` in range whose buffer is refused is refused (R66, R73). -/
theorem exec_stream_of_refused {s : State} {r : Refusal} (hr : s.base.toNat + s.len.toNat ≤ 2 ^ s.plat.aw)
    (hb : bufferRefusal s.plat (buffer s) = some r) : exec .stream s = .refused r := by
  simp [exec, execStream, streamError, bufferInRange_iff.mpr hr, hb]

theorem bufferRefusal_of_registers {p : Platform} {r : Region} (h : p.touchesRegisters r = true) :
    bufferRefusal p r = some .coversRegisters := if_pos h

theorem bufferRefusal_of_device {p : Platform} {r : Region} (hr : p.touchesRegisters r = false)
    (hd : p.touchesDevice r = true) : bufferRefusal p r = some .notOrdinaryMemory := by
  simp [bufferRefusal, hr, hd]

end Sys2Proof.Machine

namespace Sys2Proof

open Machine

/-- Settles O31: the frame of a command, and the three ways a `STREAM` goes on. -/
theorem streamLeavesTheRestAlone : Obligations.StreamLeavesTheRestAlone := by
  intro s t h
  have hf := exec_frame h
  have hother : ∀ a, a < s.base.toNat ∨ s.base.toNat + s.len.toNat ≤ a → t.mem.read a = s.mem.read a :=
    fun a ha => exec_stream_read_other h ha
  have hends : (s.base.toNat + s.len.toNat ≤ 2 ^ s.plat.aw →
        t.is = Vector.replicate 16 0 ∧ t.ws = Vector.replicate 16 0 ∧ t.ksb = Vector.replicate 64 0) ∧
      (t.errCode = 4 ∨ (t.err = s.err ∧ t.errCode = s.errCode ∧ t.errInfo = s.errInfo) ∨
        (2 ^ s.plat.aw < s.base.toNat + s.len.toNat ∧ t.errCode = 3 ∧ t.mem = s.mem ∧
          t.is = s.is ∧ t.ws = s.ws ∧ t.ksb = s.ksb)) := by
    obtain ⟨hout, rfl⟩ | ⟨-, -, ⟨-, rfl⟩ | ⟨a, -, rfl⟩⟩ := execStream_cases h
    · exact ⟨fun hin => absurd hin (Nat.not_le.mpr hout), .inr (.inr ⟨hout, rfl, rfl, rfl, rfl, rfl⟩)⟩
    · exact ⟨fun _ => ⟨rfl, rfl, rfl⟩, .inr (.inl ⟨rfl, rfl, rfl⟩)⟩
    · exact ⟨fun _ => ⟨rfl, rfl, rfl⟩, .inl rfl⟩
  exact ⟨hf.key, hf.nonce, hf.ctr, hf.base, hf.len, hf.plat, hf.host, hf.sched, hf.rdata, hf.mdata, hf.owned, hother,
    hends⟩

/-- Settles O32: `BLOCK` overwrites `WS` and `KSB` without reading them, and a `STREAM` in range zeroes the three. -/
theorem commandsIgnoreOldWorkingRegisters : Obligations.CommandsIgnoreOldWorkingRegisters := by
  refine ⟨fun s ws ksb => by rw [exec_block, exec_block], fun s is ws ksb hr => ?_⟩
  cases hb : bufferRefusal s.plat (buffer s) with
  | some r =>
    rw [exec_stream_of_refused hr hb]
    exact exec_stream_of_refused hr hb
  | none =>
    rw [exec, exec, execStream_of_in_range hr hb]
    exact execStream_of_in_range hr hb

/-- Settles O33: the two reasons to refuse a buffer. -/
theorem streamOverForbiddenMemoryIsRefused : Obligations.StreamOverForbiddenMemoryIsRefused := fun _ hr =>
  ⟨fun hregs => exec_stream_of_refused hr (bufferRefusal_of_registers hregs),
    fun hregs hdev => exec_stream_of_refused hr (bufferRefusal_of_device hregs hdev)⟩

end Sys2Proof

/-! ### Register accesses of the host (R30, R34, R111, R112, R116) -/

namespace Sys2Proof.Machine

/-- A write at the offset of a named slot. -/
theorem step_write_slot {s : State} {r : Reg} (v : Word) (hb : s.busy = false) (hcmd : r ≠ .cmd)
    (hres : r ≠ .reserved) : step (s.withHostAction (.wr r.offset 32 v)) = .next (writeSlot r v s) := by
  obtain ⟨hat, haligned⟩ := regAt_offset hres
  rw [step_write s v haligned, hat, writeReg_of_idle v hb hcmd]

/-- A write to a read-only or a reserved slot is ignored (R34, R111). -/
theorem writeSlot_of_readOnly {r : Reg} (v : Word) (s : State)
    (h : r = .errInfo ∨ (∃ j, r = .ksbw j) ∨ r = .reserved) : r ≠ .cmd ∧ writeSlot r v s = s := by
  obtain rfl | ⟨j, rfl⟩ | rfl := h <;> exact ⟨nofun, rfl⟩

/-- An idle read of a slot other than `STATUS` returns its contents and changes nothing else (R112). -/
theorem readReg_of_idle {s : State} {r : Reg} (hb : s.busy = false) (hr : r ≠ .status) :
    readReg r s = { s with rdata := regValue r s } := by
  obtain ⟨hbusy, -⟩ | ⟨-, -, h⟩ | ⟨-, hstatus, -⟩ := readReg_cases r s
  · simp [hb] at hbusy
  · exact h
  · exact absurd hstatus hr

/-- An idle read of `STATUS` also gives the host its buffers back (R70 b, R112). -/
theorem readReg_status_of_idle {s : State} (hb : s.busy = false) :
    readReg .status s = { s with owned := [], rdata := statusWord s } := by
  obtain ⟨hbusy, -⟩ | ⟨-, hne, -⟩ | ⟨-, -, h⟩ := readReg_cases .status s
  · simp [hb] at hbusy
  · simp [hb] at hne
  · exact h

/-- While busy a read of a slot that is not a working register returns its contents (R116). -/
theorem readReg_of_busy {s : State} {r : Reg} (hb : s.busy = true) (hr : r.working = false) :
    readReg r s = { s with rdata := regValue r s } := by
  obtain ⟨-, hw, -⟩ | ⟨-, -, h⟩ | ⟨hidle, -⟩ := readReg_cases r s
  · simp [hr] at hw
  · exact h
  · simp [hb] at hidle

/-- While busy a read of a working register returns a new free value (R116, U4). -/
theorem readReg_working_of_busy {s : State} {r : Reg} (hb : s.busy = true) (hr : r.working = true) :
    readReg r s = { s with rdata := Config.freeWord s.draws, draws := s.draws + 1 } := by
  obtain ⟨-, -, h⟩ | ⟨hor, -⟩ | ⟨hidle, -⟩ := readReg_cases r s
  · exact h
  · simp [hb, hr] at hor
  · simp [hb] at hidle

/-- A read at the offset of a named slot other than `STATUS`. -/
theorem step_read_slot {s : State} {r : Reg} (hb : s.busy = false) (hstatus : r ≠ .status) (hres : r ≠ .reserved) :
    step (s.withHostAction (.rd r.offset 32)) = .next { s with rdata := regValue r s } := by
  obtain ⟨hat, haligned⟩ := regAt_offset hres
  rw [step_read s haligned, hat, readReg_of_idle hb hstatus]

/-- Slot 1 is the only one that holds `STATUS` (R33). -/
theorem registerMap_status : ∀ n : Fin 128, registerMap.getD n.val .reserved = .status → n.val = 1 := by decide

/-- `STATUS` is found at offset `0x004` only (R33). -/
theorem eq_of_regAt_status {off : BitVec 9} (ha : off.toNat % 4 = 0) (h : regAt off = .status) : off = 0x004 := by
  have hslot : off.toNat / 4 = 1 := registerMap_status ⟨off.toNat / 4, by omega⟩ h
  apply BitVec.eq_of_toNat_eq
  show off.toNat = 4
  omega

/-- The bits of `STATUS` (R30, R112). -/
theorem statusWord_getLsbD (s : State) (i : Nat) :
    (statusWord s).getLsbD i =
      if i = 0 then s.busy else if i = 1 then s.done else if i = 2 then s.err
      else if i < 8 then false else if i < 12 then s.errCode.getLsbD (i - 8) else false := by
  simp only [statusWord, BitVec.getLsbD_append, BitVec.getLsbD_zero, BitVec.getLsbD_ofBool]
  match i with
  | 0 | 1 | 2 => simp
  | n + 3 =>
    have hzero : n + 3 < 8 ↔ n < 5 := by omega
    have hhigh : n + 3 < 12 ↔ n < 9 := by omega
    have hcode : n - 5 < 4 ↔ n < 9 := by omega
    simp [hzero, hhigh, hcode]

end Sys2Proof.Machine

namespace Sys2Proof

open Machine

/-- Settles O35: `writeSlot` for each slot. -/
theorem registerWriteChangesOnlyThatRegister : Obligations.RegisterWriteChangesOnlyThatRegister := by
  intro s v hb
  refine ⟨fun j => step_write_slot (r := .key j) v hb nofun nofun,
    fun j => step_write_slot (r := .nonce j) v hb nofun nofun,
    fun i => step_write_slot (r := .is i) v hb nofun nofun,
    fun i => step_write_slot (r := .ws i) v hb nofun nofun,
    step_write_slot (r := .ctr) v hb nofun nofun,
    ⟨_, step_write_slot (r := .base) v hb nofun nofun, keepLow_getLsbD _ v⟩,
    ⟨_, step_write_slot (r := .len) v hb nofun nofun, keepLow_getLsbD _ v⟩, fun off ha hoff => ?ignored⟩
  case ignored =>
    rw [step_write s v ha]
    obtain ⟨hcmd, hignored⟩ := writeSlot_of_readOnly v s hoff
    rw [writeReg_of_idle v hb hcmd, hignored]

/-- Settles O36: `regValue` for each slot. -/
theorem registerReadReturnsTheContents : Obligations.RegisterReadReturnsTheContents := by
  intro s hb
  refine ⟨fun j => step_read_slot (r := .key j) hb nofun nofun, fun j => step_read_slot (r := .nonce j) hb nofun nofun,
    fun i => step_read_slot (r := .is i) hb nofun nofun, fun i => step_read_slot (r := .ws i) hb nofun nofun,
    fun j => step_read_slot (r := .ksbw j) hb nofun nofun, step_read_slot (r := .ctr) hb nofun nofun,
    step_read_slot (r := .base) hb nofun nofun, step_read_slot (r := .len) hb nofun nofun,
    step_read_slot (r := .errInfo) hb nofun nofun, step_read_slot (r := .cmd) hb nofun nofun, ?status,
    fun off ha hoff => ?reserved⟩
  case status =>
    have hstatus : regAt 0x004 = .status := by decide
    rw [step_read s (by decide), hstatus, readReg_status_of_idle hb]
  case reserved =>
    rw [step_read s ha, readReg_of_idle hb (by simp [hoff]), hoff, regValue]

/-- Settles O37, from the bits of `STATUS`. -/
theorem statusWordLayout : Obligations.StatusWordLayout := by
  intro s
  simp only [statusWord_getLsbD]
  refine ⟨rfl, rfl, rfl, fun i hlo hhi => ?zero, fun i hi => ?code, fun i hi => ?high⟩
  case zero => rw [if_neg (by omega), if_neg (by omega), if_neg (by omega), if_pos (by omega)]
  case code =>
    rw [if_neg (by omega), if_neg (by omega), if_neg (by omega), if_neg (by omega), if_pos (by omega),
      Nat.add_sub_cancel_left]
  case high =>
    rw [if_neg (by omega), if_neg (by omega), if_neg (by omega), if_neg (by omega), if_neg (by omega)]

/-- Settles O39: while busy `writeReg` does nothing. -/
theorem writesWhileBusyAreIgnored : Obligations.WritesWhileBusyAreIgnored := by
  intro s off v hb ha
  rw [step_write s v ha, writeReg_of_busy _ v hb]

/-- Settles O40: the two kinds of a read while busy. -/
theorem readsWhileBusy : Obligations.ReadsWhileBusy := by
  intro s off hb ha
  rw [step_read s ha]
  exact ⟨fun hr => by rw [readReg_of_busy hb hr], fun hr => by rw [readReg_working_of_busy hb hr]⟩

/-- Settles O41: such an access is not a defined one. -/
theorem undefinedRegisterAccessIsRefused : Obligations.UndefinedRegisterAccessIsRefused := by
  intro s off width v h
  have hundef : definedAccess off width = false := by
    rw [definedAccess, decide_eq_false_iff_not]
    omega
  rw [step_withHostAction, step_withHostAction, hostAct, hostAct, hundef]
  exact ⟨rfl, rfl⟩

end Sys2Proof

/-! ### The host's accesses to the data space (R61, R70, R97) -/

namespace Sys2Proof

/-- A region that contains an address of another meets it. -/
theorem Region.meets_of_contains {r x : Region} {a : Nat} (hr : r.contains a = true) (hx : x.contains a = true) :
    r.meets x = true := by
  simp only [Region.contains, Region.meets, decide_eq_true_eq] at *
  omega

namespace Machine

/-- The host may touch a region inside the data space, outside the engine's buffers, in ordinary memory and away from
the registers (R61, R66, R70, R73). -/
theorem hostMayTouch_of_allowed {r : Region} {s : State} (hin : r.base + r.size ≤ 2 ^ s.plat.aw)
    (howned : ∀ o ∈ s.owned, o.meets r = false) (hdev : s.plat.touchesDevice r = false)
    (hregs : s.plat.touchesRegisters r = false) : hostMayTouch r s = none := by
  have hfree : ¬ s.owned.any (·.meets r) = true := by simpa using howned
  rw [hostMayTouch, if_neg (by omega), if_neg hfree, bufferRefusal_eq_none.mpr ⟨hregs, hdev⟩]
  rfl

/-- Inside the data space, a region that meets a buffer of the engine's is a race (R70 c). -/
theorem hostMayTouch_of_race {r o : Region} {s : State} (hin : r.base + r.size ≤ 2 ^ s.plat.aw)
    (ho : o ∈ s.owned) (hmeets : o.meets r = true) : hostMayTouch r s = some (.inr .bufferRace) := by
  rw [hostMayTouch, if_neg (by omega), if_pos (List.any_eq_true.mpr ⟨o, ho, hmeets⟩)]

/-- An action of the host that is not a `MEMW` leaves the data space (R60). -/
theorem hostAct_mem {act : HostAction} {s t : State} (h : hostAct act s = .next t) :
    t.mem = s.mem ∨ ∃ addr bytes, act = .memw addr bytes := by
  obtain ⟨off, v, -, -, rfl⟩ | ⟨off, -, -, rfl⟩ | ⟨addr, bytes, hact, -, rfl⟩ | ⟨addr, count, -, -, rfl⟩ |
    ⟨-, ⟨-, rfl⟩ | ⟨-, rfl⟩⟩ := hostAct_cases h
  · exact .inl (writeReg_frame ..).2
  · exact .inl (readReg_frame ..).2
  · exact .inr ⟨addr, bytes, hact⟩
  · exact .inl rfl
  · exact .inl (readReg_frame ..).2
  · exact .inl (readReg_frame ..).2

end Machine

open Machine

/-- Settles O42: such an access may touch its region, and `writeBytes` and `readBytes` say what it does. -/
theorem hostDataAccessesPlaceAndReturnBytes : Obligations.HostDataAccessesPlaceAndReturnBytes := by
  intro s addr bytes hwf hin howned hdev hregs
  have hmay : hostMayTouch ⟨addr, bytes.length⟩ s = none := hostMayTouch_of_allowed hin howned hdev hregs
  refine ⟨⟨s.mem.writeBytes addr bytes, ?memw, fun i hi => writeBytes_read hwf addr bytes i hi,
    fun a ha => writeBytes_read_other s.mem addr bytes ha⟩,
    ⟨s.mem.readBytes addr bytes.length, ?memr, readBytes_eq s.mem addr bytes.length⟩⟩
  case memw => simp only [step_withHostAction, hostAct, hostMemAccess, hmay]
  case memr => simp only [step_withHostAction, hostAct, hostMemAccess, hmay]

/-- Settles O43: the byte lies in both regions. -/
theorem hostAccessToABusyBufferIsRefused : Obligations.HostAccessToABusyBufferIsRefused := by
  rintro s r addr bytes hr hin ⟨i, hi, hcontains⟩
  have hbyte : (⟨addr, bytes.length⟩ : Region).contains (addr + i) = true := by
    rw [Region.contains, decide_eq_true_eq]
    exact ⟨Nat.le_add_right addr i, Nat.add_lt_add_left hi addr⟩
  have hrace : hostMayTouch ⟨addr, bytes.length⟩ s = some (.inr .bufferRace) :=
    hostMayTouch_of_race hin hr (Region.meets_of_contains hcontains hbyte)
  constructor
  · simp only [step_withHostAction, hostAct, hostMemAccess, hrace]
  · simp only [step_withHostAction, hostAct, hostMemAccess, hrace]

end Sys2Proof

/-! ### Errors and reset (R207, R208, R230, R231) -/

namespace Sys2Proof.Machine

/-- Whether a state holds the error report of another. -/
def SameReport (s t : State) : Prop := t.err = s.err ∧ t.errCode = s.errCode ∧ t.errInfo = s.errInfo

/-- A register read leaves the error report. -/
theorem readReg_sameReport (r : Reg) (s : State) : SameReport s (readReg r s) := by
  obtain ⟨-, -, h⟩ | ⟨-, -, h⟩ | ⟨-, -, h⟩ := readReg_cases r s <;> rw [h] <;> exact ⟨rfl, rfl, rfl⟩

/-- While in error a register write leaves the report, unless it is the write to `STATUS` that clears it (R208). -/
theorem writeReg_sameReport {s : State} (he : s.err = true) (r : Reg) (v : Word) :
    SameReport s (writeReg r v s) ∨ (r = .status ∧ v.getLsbD 2 = true) := by
  cases hb : s.busy with
  | true =>
    rw [writeReg_of_busy r v hb]
    exact .inl ⟨rfl, rfl, rfl⟩
  | false =>
    cases r with
    | cmd =>
      rw [writeReg_cmd_of_idle v hb, issue_of_err v he]
      exact .inl ⟨rfl, rfl, rfl⟩
    | status =>
      cases hv : v.getLsbD 2 with
      | true => exact .inr ⟨rfl, rfl⟩
      | false =>
        rw [writeReg_of_idle v hb (by decide), writeSlot, writeStatus_eq]
        refine .inl ?_
        simp only [SameReport, hv, Bool.not_false, Bool.and_true, Bool.false_eq_true, if_false, and_self]
    | _ =>
      rw [writeReg_of_idle v hb (by simp)]
      exact .inl ⟨rfl, rfl, rfl⟩

/-- While in error an action of the host leaves the report, unless it is a write to `STATUS` with bit 2 (R208). -/
theorem hostAct_sameReport {act : HostAction} {s t : State} (he : s.err = true) (h : hostAct act s = .next t) :
    SameReport s t ∨ ∃ v, act = .wr 0x004 32 v ∧ v.getLsbD 2 = true := by
  obtain ⟨off, v, rfl, ha, rfl⟩ | ⟨off, -, -, rfl⟩ | ⟨addr, bytes, -, -, rfl⟩ | ⟨addr, count, -, -, rfl⟩ |
    ⟨-, ⟨-, rfl⟩ | ⟨-, rfl⟩⟩ := hostAct_cases h
  · refine (writeReg_sameReport he _ v).imp_right fun ⟨hstatus, hv⟩ => ⟨v, ?_, hv⟩
    rw [eq_of_regAt_status ha hstatus]
  · exact .inl (readReg_sameReport ..)
  · exact .inl ⟨rfl, rfl, rfl⟩
  · exact .inl ⟨rfl, rfl, rfl⟩
  · exact .inl (readReg_sameReport .status s)
  · exact .inl (readReg_sameReport ..)

/-- Reset while no `STREAM` is busy (R230). -/
theorem resetEvent_of_not_streaming {s : State} (h : streaming s = false) :
    resetEvent s = .next (resetRegisters s) := by
  simp [resetEvent, h]

/-- Reset while a `STREAM` is busy over ordinary memory away from the registers (R231). -/
theorem resetEvent_of_streaming {s : State} (h : streaming s = true)
    (hb : bufferRefusal s.plat (buffer s) = none) :
    resetEvent s = .next (resetRegisters
      { s with mem := mixPass (Config.freeTook s.draws) 0 s.base.toNat (streamBytes s) s.mem }) := by
  simp [resetEvent, h, hb]

/-- After reset `STATUS` reads 0 (R41). -/
theorem statusWord_resetRegisters (s : State) : statusWord (resetRegisters s) = 0 := by
  simp [statusWord]

end Sys2Proof.Machine

namespace Sys2Proof

open Machine

/-- Settles O45: a unit in error is idle, so only reset and the host move, and the host clears the report in one way
only. -/
theorem errorStaysUntilCleared : Obligations.ErrorStaysUntilCleared := by
  intro s t hs he h
  have hidle : s.busy = false := by
    by_contra hb
    simp [hs.busyExcludes (by simpa using hb)] at he
  obtain ⟨u, -, ⟨hu, rfl, -, -⟩ | ⟨act, hhost, hu, hmoves, hact⟩ | ⟨hu, heng, -⟩ | ⟨-, -, hreset⟩⟩ := step_cases h
  · rw [hu]
    exact .inl ⟨he, rfl, rfl⟩
  · rw [hu] at hact
    obtain ⟨herr, hreport⟩ | ⟨v, hv, hbit⟩ :=
      hostAct_sameReport (s := { s with sched := u.sched, host := u.host }) he hact
    · exact .inl ⟨herr.trans he, hreport⟩
    · exact .inr (.inr ⟨hmoves, v, u.host, by rw [hhost, hv], hbit⟩)
  · rw [hu] at heng
    obtain ⟨-, rfl⟩ | ⟨hb, -⟩ := engineTurn_cases heng
    · exact .inl ⟨he, rfl, rfl⟩
    · simp [hidle] at hb
  · exact .inr (.inl hreset)

/-- Settles O44: the code of each error. -/
theorem raiseRecordsTheError : Obligations.RaiseRecordsTheError := by
  intro e info s
  cases e <;> rfl

/-- Settles O46: the values are read off `State.reset`. -/
theorem resetValues : Obligations.ResetValues := by
  refine ⟨fun i => ⟨?_, ?_⟩, fun i => ?_, fun j => ?_, fun j => ?_, rfl, rfl, rfl, rfl, rfl, rfl, rfl, by decide, rfl⟩
  all_goals simp [State.reset]

/-- Settles O47: `resetRegisters` in both cases, the data space touched in the second only. -/
theorem resetEventClearsTheUnit : Obligations.ResetEventClearsTheUnit := by
  intro s h
  rw [step_withResetTurn]
  cases hstr : streaming s with
  | false =>
    refine ⟨_, resetEvent_of_not_streaming hstr, ?_⟩
    simp [statusWord_resetRegisters]
  | true =>
    obtain ⟨hdev, hregs⟩ := h hstr
    refine ⟨_, resetEvent_of_streaming hstr (bufferRefusal_eq_none.mpr ⟨hregs, hdev⟩), ?_⟩
    simp [statusWord_resetRegisters]

/-- Settles O48: what `mixPass` leaves of each byte. -/
theorem resetDuringStreamLeavesOldOrTransformedBytes : Obligations.ResetDuringStreamLeavesOldOrTransformedBytes := by
  intro s hwf hstr hdev hregs
  rw [step_withResetTurn]
  refine ⟨_, resetEvent_of_streaming hstr (bufferRefusal_eq_none.mpr ⟨hregs, hdev⟩), rfl, rfl, fun i hi => ?inside,
    fun a ha => ?outside⟩
  case inside =>
    rw [resetRegisters_mem, mixPass_read hwf _ 0 _ _ i (by rwa [streamBytes_length]), streamBytes_get, xor8]
    split
    · exact .inr rfl
    · exact .inl rfl
  case outside => exact mixPass_read_other _ _ _ _ _ (by rwa [streamBytes_length])

end Sys2Proof

/-! ### The whole machine (R110, R115, R116, R118, R243) -/

namespace Sys2Proof.Machine

/-- While busy the engine's turn performs the command in `CUR` (R115). -/
theorem engineTurn_of_command {s : State} {i : Instr} (hb : s.busy = true) (hd : decode s.cur = .command i) :
    engineTurn s = exec i s := by
  rw [engineTurn, if_pos hb, hd]

/-- While idle the engine has no step (R110). -/
theorem engineTurn_of_idle {s : State} (hb : s.busy = false) : engineTurn s = .next s := by
  rw [engineTurn, if_neg (by simp [hb])]

/-- A word that is no command ends as `ILLEGAL_CMD` (log entry 4). -/
theorem engineTurn_of_illegal {s : State} {why : Illegal} (hb : s.busy = true) (hd : decode s.cur = .illegal why) :
    engineTurn s = .next (abort .illegalCmd s.cur s) := by
  rw [engineTurn, if_pos hb, hd]

theorem step_of_engine {s : State} {rest : List Turn} (h : s.sched = .engine :: rest) :
    step s = engineTurn { s with sched := rest } := by
  simp only [step, h]

/-- With no turn left a busy unit's engine moves (R118; log entry 1). -/
theorem step_of_busy {s : State} (h : s.sched = []) (hb : s.busy = true) : step s = engineTurn s := by
  simp only [step, h, hb, if_true]

/-- A `STREAM` out of range ends with `RANGE`, nothing else changed (R178; log entry 4). -/
theorem exec_stream_of_out_of_range {s : State} (hr : 2 ^ s.plat.aw < s.base.toNat + s.len.toNat) :
    exec .stream s = .next (abort .range (encode .stream) s) := by
  have herr : streamError s = some .range := admission_stream_of_out_of_range hr
  rw [exec, execStream, herr]

/-- Every command goes on, except a `STREAM` whose buffer is refused (R66, R73, R115). -/
theorem exec_total (i : Instr) (s : State) :
    (∃ t, exec i s = .next t) ∨
    (i = .stream ∧ ∃ r, bufferRefusal s.plat (buffer s) = some r ∧ exec i s = .refused r) := by
  cases i with
  | qr a b c d =>
    cases hq : indicesDistinct a b c d with
    | true => exact .inl ⟨_, exec_qr_of_distinct s hq⟩
    | false => exact .inl ⟨_, exec_qr_of_repeated s hq⟩
  | block => exact .inl ⟨_, exec_block s⟩
  | stream =>
    by_cases hr : s.base.toNat + s.len.toNat ≤ 2 ^ s.plat.aw
    · cases hb : bufferRefusal s.plat (buffer s) with
      | some r => exact .inr ⟨rfl, r, rfl, exec_stream_of_refused hr hb⟩
      | none =>
        cases hf : (streamPass s).failed with
        | none => exact .inl ⟨_, exec_stream_of_pass hr hb hf⟩
        | some a => exact .inl ⟨_, exec_stream_of_failed_pass hr hb hf⟩
    · exact .inl ⟨_, exec_stream_of_out_of_range (Nat.not_le.mp hr)⟩

theorem bufferRefusal_eq_some {p : Platform} {x : Region} {r : Refusal} (h : bufferRefusal p x = some r) :
    (p.touchesRegisters x = true ∧ r = .coversRegisters) ∨ (p.touchesDevice x = true ∧ r = .notOrdinaryMemory) := by
  unfold bufferRefusal at h
  split at h
  · next hregs => exact .inl ⟨hregs, (Option.some.inj h).symm⟩
  · split at h
    · next hdev => exact .inr ⟨hdev, (Option.some.inj h).symm⟩
    · cases h

/-- An engine turn that changes the data space ends a `STREAM` (R60, R69). -/
theorem engineTurn_mem {s t : State} (h : engineTurn s = .next t) :
    t.mem = s.mem ∨ (s.busy = true ∧ decode s.cur = .command .stream) := by
  obtain ⟨-, rfl⟩ | ⟨hb, ⟨i, hd, hx⟩ | ⟨why, -, rfl⟩⟩ := engineTurn_cases h
  · exact .inl rfl
  · exact (exec_mem_cases hx).imp_right fun ⟨hi, _, _⟩ => ⟨hb, by rw [hd, hi]⟩
  · exact .inl rfl

/-- A reset that changes the data space abandons a `STREAM` (R231). -/
theorem resetEvent_mem {s t : State} (h : resetEvent s = .next t) :
    t.mem = s.mem ∨ (s.busy = true ∧ decode s.cur = .command .stream) := by
  obtain ⟨-, rfl⟩ | ⟨hstr, -, -⟩ := resetEvent_cases h
  · exact .inl rfl
  · exact .inr (streaming_iff.mp hstr)

/-- The registers, `CUR`, the status fields and the record of owned buffers are those of another state. -/
structure SameUnit (s t : State) : Prop where
  ws : t.ws = s.ws
  is : t.is = s.is
  ksb : t.ksb = s.ksb
  key : t.key = s.key
  nonce : t.nonce = s.nonce
  ctr : t.ctr = s.ctr
  base : t.base = s.base
  len : t.len = s.len
  cur : t.cur = s.cur
  busy : t.busy = s.busy
  done : t.done = s.done
  err : t.err = s.err
  errCode : t.errCode = s.errCode
  errInfo : t.errInfo = s.errInfo
  owned : t.owned = s.owned

/-- While busy a register read changes nothing of the unit (R116). -/
theorem readReg_sameUnit {s : State} (hb : s.busy = true) (r : Reg) : SameUnit s (readReg r s) := by
  cases hr : r.working with
  | true => rw [readReg_working_of_busy hb hr]; constructor <;> rfl
  | false => rw [readReg_of_busy hb hr]; constructor <;> rfl

/-- While busy no action of the host changes anything of the unit (R35, R116). -/
theorem hostAct_sameUnit {act : HostAction} {s t : State} (hb : s.busy = true) (h : hostAct act s = .next t) :
    SameUnit s t := by
  obtain ⟨off, v, -, -, rfl⟩ | ⟨off, -, -, rfl⟩ | ⟨addr, bytes, -, -, rfl⟩ | ⟨addr, count, -, -, rfl⟩ |
    ⟨-, ⟨-, rfl⟩ | ⟨hidle, -⟩⟩ := hostAct_cases h
  · rw [writeReg_of_busy _ v hb]; constructor <;> rfl
  · exact readReg_sameUnit hb _
  · constructor <;> rfl
  · constructor <;> rfl
  · rw [readReg_of_busy hb rfl]; constructor <;> rfl
  · simp [hb] at hidle

/-- A read of `STATUS` that shows `BUSY = 0` was made of an idle unit (R112, R243). -/
theorem idle_of_status_read {s : State} (h : (readReg .status s).rdata.getLsbD 0 = false) : s.busy = false := by
  by_contra hb
  rw [readReg_of_busy (by simpa using hb) rfl] at h
  exact hb (by rw [← h]; exact (statusWord_getLsbD s 0).symm)

theorem hostAct_read_status (s : State) : hostAct (.rd 0x004 32) s = .next (readReg .status s) := by
  have hstatus : regAt 0x004 = .status := by decide
  rw [hostAct, if_pos (by decide), hstatus]

/-- A poll that shows `BUSY = 1` leaves the `WAIT` to be done (R98). -/
theorem hostAct_wait_of_busy {s : State} (hb : s.busy = true) :
    hostAct .wait s = .next { readReg .status s with host := .wait :: s.host } := if_pos hb

/-- A poll that shows `BUSY = 0` ends the `WAIT` (R98). -/
theorem hostAct_wait_of_idle {s : State} (hb : s.busy = false) :
    hostAct .wait s = .next (readReg .status s) := if_neg (by simp [hb])

theorem hostTurn_cons {s : State} {act : HostAction} {rest : List HostAction} (h : s.host = act :: rest) :
    hostTurn s = hostAct act { s with host := rest } := by
  simp only [hostTurn, h]

/-- The last action of a script, a read of `STATUS` or a `WAIT`, if it shows `BUSY = 0`: the unit is idle, and the
read is the whole of what the host did (R243). -/
theorem hostTurn_last_read {s t : State} (hlast : s.host = [.rd 0x004 32] ∨ s.host = [.wait])
    (h : hostTurn s = .next t) (hbit : t.rdata.getLsbD 0 = false) :
    s.busy = false ∧ t = { s with host := [], owned := [], rdata := statusWord s } := by
  obtain hhost | hhost := hlast <;> rw [hostTurn_cons hhost] at h
  · rw [hostAct_read_status] at h
    cases h
    have hb : s.busy = false := idle_of_status_read (s := { s with host := [] }) hbit
    exact ⟨hb, readReg_status_of_idle (s := { s with host := [] }) hb⟩
  · by_cases hb : s.busy = true
    · rw [hostAct_wait_of_busy (s := { s with host := [] }) hb] at h
      cases h
      have hidle : s.busy = false := idle_of_status_read (s := { s with host := [] }) hbit
      simp [hidle] at hb
    · have hidle : s.busy = false := by simpa using hb
      rw [hostAct_wait_of_idle (s := { s with host := [] }) hidle] at h
      cases h
      exact ⟨hidle, readReg_status_of_idle (s := { s with host := [] }) hidle⟩

/-- A step that ends a run is a read of `STATUS` of an idle unit that uses up the script (R243). -/
theorem endsRun_eq {s t : State} (h : endsRun s t) :
    s.busy = false ∧
    t = { s with sched := s.sched.tail, host := [], owned := [], rdata := statusWord s } := by
  obtain ⟨hmoves, hlast, hstep, hbit⟩ := h
  rw [step_of_hostMoves hmoves] at hstep
  exact hostTurn_last_read (s := { s with sched := s.sched.tail }) hlast hstep hbit

/-- With no turn left, a `WAIT` of the host on an idle unit reads `STATUS` and is over (R98). -/
theorem step_wait_of_idle {s : State} {rest : List HostAction} (hsched : s.sched = []) (hb : s.busy = false)
    (hhost : s.host = .wait :: rest) :
    step s = .next { s with host := rest, owned := [], rdata := statusWord s } := by
  have hturn : step s = hostTurn s := by simp only [step, hsched, hb, Bool.false_eq_true, if_false]
  rw [hturn, hostTurn_cons hhost, hostAct_wait_of_idle (s := { s with host := rest }) hb,
    readReg_status_of_idle (s := { s with host := rest }) hb]
  rfl

/-- Acceptance of the word of a command: the buffer of a `STREAM` becomes the engine's (R114, R239). -/
theorem accept_encode (i : Instr) (s : State) :
    accept (encode i) s = { s with
      busy := true
      cur := encode i
      owned := (if i = .stream then [buffer s] else []) ++ s.owned } := by
  rw [accept, decode_encode]
  cases i <;> rfl

/-- The word of a command, placed: it is latched, no error pending, and the engine is next (log entry 3). -/
theorem withFetchWord_encode (s : State) (i : Instr) :
    s.withFetchWord 32 (encode i).toNat =
      (accept (encode i) (clearError { s with done := false })).withEngineTurn := by
  have hword : BitVec.ofNat 32 ((encode i).toNat % 2 ^ 32) = encode i := by
    rw [Nat.mod_eq_of_lt (encode i).isLt, BitVec.ofNat_toNat, BitVec.setWidth_eq]
  rw [State.withFetchWord, hword, State.withEngineTurn]

end Sys2Proof.Machine

namespace Sys2Proof

open Machine

/-- Settles O5: the ten words are decoded. -/
theorem sampleWordsDecode : Obligations.SampleWordsDecode := by
  unfold Obligations.SampleWordsDecode
  decide

/-- Settles O49: the engine's turn, busy and idle. -/
theorem stepRunsTheLatchedCommand : Obligations.StepRunsTheLatchedCommand := by
  refine fun s => ⟨fun i hb hd => ⟨fun rest hs => ?turn, fun hs => ?noTurn⟩, fun hb rest hs => ?idle⟩
  case turn => rw [step_of_engine hs]; exact engineTurn_of_command hb hd
  case noTurn => rw [step_of_busy hs hb, engineTurn_of_command hb hd]
  case idle => rw [step_of_engine hs]; exact engineTurn_of_idle hb

/-- Settles O50: the word placed is the command's, the decoder undoes the encoder, and what acceptance leaves is
written out. -/
theorem fetchWordRunsItsCommand : Obligations.FetchWordRunsItsCommand := by
  intro s i
  rw [withFetchWord_encode, step_withEngineTurn, engineTurn_of_command rfl (decode_encode i), accept_encode]
  rfl

/-- Settles O55, by cases on who moves. -/
theorem onlyStreamHostAndResetChangeMemory : Obligations.OnlyStreamHostAndResetChangeMemory := by
  intro s t h hne
  obtain ⟨u, -, ⟨hu, rfl, -, -⟩ | ⟨act, hhost, hu, hmoves, hact⟩ | ⟨hu, heng, hturn⟩ | ⟨hu, hres, rest, hsched⟩⟩ :=
    step_cases h
  · rw [hu] at hne
    exact absurd rfl hne
  · have hmem : u.mem = s.mem := by rw [hu]
    obtain ⟨addr, bytes, hmemw⟩ := (hostAct_mem hact).resolve_left (by rwa [hmem])
    exact .inr ⟨hmoves, addr, bytes, u.host, by rw [hhost, hmemw]⟩
  · rw [hu] at heng
    obtain ⟨hb, hd⟩ := (engineTurn_mem heng).resolve_left hne
    exact .inl ⟨hb, hd, fun rest => (hturn rest).1⟩
  · rw [hu] at hres
    obtain ⟨hb, hd⟩ := (resetEvent_mem hres).resolve_left hne
    exact .inl ⟨hb, hd, by simp [hsched]⟩

/-- Settles O56: the frame of an engine turn. -/
theorem engineNeverWritesOperands : Obligations.EngineNeverWritesOperands := by
  intro s t h
  rw [step_withEngineTurn] at h
  have hf := engineTurn_frame h
  exact ⟨hf.key, hf.nonce, hf.ctr, hf.base, hf.len⟩

/-- Settles O57, by `hostAct_sameUnit`. -/
theorem hostChangesNoRegisterWhileBusy : Obligations.HostChangesNoRegisterWhileBusy := by
  intro s t act hb h
  rw [step_withHostAction] at h
  have hu := hostAct_sameUnit hb h
  exact ⟨hu.ws, hu.is, hu.ksb, hu.key, hu.nonce, hu.ctr, hu.base, hu.len, hu.cur, hu.busy.trans hb, hu.done, hu.err,
    hu.errCode, hu.errInfo, hu.owned⟩

/-- Settles O58: an accepted `QR` has distinct indices, an accepted `STREAM` is in range, so `BUS` is what is left. -/
theorem completionRaisesOnlyBus : Obligations.CompletionRaisesOnlyBus := by
  intro s t hs hb h
  have he : s.err = false := (hs.status.busyExcludes hb).2
  obtain ⟨i, hd, hwf, hr⟩ := hs.latched hb
  rw [step_withEngineTurn, engineTurn_of_command hb hd] at h
  cases i with
  | qr a b c d =>
    obtain ⟨-, rfl⟩ | ⟨hq, -⟩ := execQr_cases h
    · exact .inl ⟨rfl, he⟩
    · rw [indicesDistinct_eq_wellFormed, hwf] at hq
      cases hq
  | block =>
    obtain rfl := execBlock_cases h
    exact .inl ⟨rfl, he⟩
  | stream =>
    obtain ⟨hout, -⟩ | ⟨-, -, ⟨-, rfl⟩ | ⟨a, -, rfl⟩⟩ := execStream_cases h
    · exact absurd (hr rfl) (Nat.not_le.mpr hout)
    · exact .inl ⟨rfl, he⟩
    · exact .inr ⟨hd, rfl, rfl, rfl⟩

/-- Settles O59: every outcome but the two refusals of a `STREAM` is a next state, which is idle. -/
theorem engineTurnEndsTheCommand : Obligations.EngineTurnEndsTheCommand := by
  intro s hb
  rw [step_withEngineTurn]
  cases hd : decode s.cur with
  | illegal why => exact .inl ⟨_, engineTurn_of_illegal hb hd, rfl⟩
  | command i =>
    rw [engineTurn_of_command hb hd]
    obtain ⟨t, ht⟩ | ⟨rfl, r, hrefusal, hx⟩ := exec_total i s
    · exact .inl ⟨t, ht, exec_idle ht⟩
    · refine .inr ⟨rfl, ?_⟩
      obtain ⟨hregs, rfl⟩ | ⟨hdev, rfl⟩ := bufferRefusal_eq_some hrefusal
      · exact .inl ⟨hregs, hx⟩
      · exact .inr ⟨hdev, hx⟩

/-- Settles O60: the engine's turn leaves the unit idle with the `WAIT` still next, and the host's turn after it reads
`STATUS`. -/
theorem waitEndsInTwoSteps : Obligations.WaitEndsInTwoSteps := by
  refine ⟨fun s t rest hb hsched hhost h => ?_, fun start t hended => ?_⟩
  · rw [step_of_busy hsched hb] at h
    have hf := engineTurn_frame h
    have hidle : t.busy = false := engineTurn_idle h
    have hsched' : t.sched = [] := hf.sched.trans hsched
    have hhost' : t.host = .wait :: rest := hf.host.trans hhost
    have hstep := step_wait_of_idle hsched' hidle hhost'
    refine ⟨hidle, _, hstep, rfl, rfl, rfl, fun hrest => ?_⟩
    subst hrest
    have hrun : ended s { t with host := [], owned := [], rdata := statusWord t } :=
      ⟨t, .step (.refl s) (by rw [step_of_busy hsched hb, h]), .inr ⟨hsched', hidle⟩, .inr hhost', hstep,
        (statusWord_getLsbD t 0).trans hidle⟩
    have herr : (statusWord t).getLsbD 2 = t.err := statusWord_getLsbD t 2
    exact ⟨hrun, fun hin => herr.symm.trans hin.2, fun hset => ⟨hrun, herr.trans hset⟩⟩
  · obtain ⟨s, -, hends⟩ := hended
    obtain ⟨hb, rfl⟩ := endsRun_eq hends
    exact ⟨rfl, hb, rfl⟩

end Sys2Proof
